-- ==== Sys2Proof/Word.lean ====
section
/-! DEFINITION. The words of the MTR: the 3-bit symbol code (R33, R70), the 16-bit sample (R34, R54) and the byte. -/

namespace Sys2Proof

/-- `sym_code[2:0]`: the one 3-bit symbol word of a command (R33, R70). -/
abbrev SymCode := BitVec 3

/-- `snk_data[15:0]`: one 16-bit sample, the payload of one beat (R34, R54). -/
abbrev Sample := BitVec 16

/-- One byte of the little-endian byte views (R52, R54). -/
abbrev Byte := BitVec 8

end Sys2Proof
end

