-- ==== Sys2Proof/Config.lean ====
section
/-! DEFINITION. The implementation parameters of R6: the fixed ones as constants, the OPEN ones (`U`, `N_C`, `A`,
`TONE_LUT`) as the fields of `Config`, which a state carries as constant state (R20). -/

namespace Sys2Proof

/-- `SAMPLE_RATE`: samples per second. Only the real-time readings of R145 and R146 use it (R6). -/
def sampleRate : Nat := 44100

/-- `SAMPLE_BITS` (R6). -/
def sampleBits : Nat := 16

/-- `CHANNELS`: mono (R6). -/
def channels : Nat := 1

/-- `BEAT_BYTES`: one sink transfer carries one sample (R6, R55). -/
def beatBytes : Nat := 2

/-- `DOT_UNITS` (R21). -/
def dotUnits : Nat := 1

/-- `DASH_UNITS` (R21). -/
def dashUnits : Nat := 3

/-- `IGAP_UNITS`: the intra-character gap (R21). -/
def igapUnits : Nat := 1

/-- `LGAP_UNITS`: the letter gap (R21). -/
def lgapUnits : Nat := 3

/-- `WGAP_UNITS`: the word gap (R21). -/
def wgapUnits : Nat := 7

/-- The OPEN parameters of R6, fixed when the block is elaborated (R20).
The table entries and the amplitude are integers, so that the range checks of R7 say something. -/
structure Config where
  /-- `U` (UNIT_BLOCKS): the number of blocks in one timing unit. -/
  U : Nat
  /-- `N_C` (CYCLE_SAMPLES): the number of samples in one block. -/
  nC : Nat
  /-- `A` (TONE_AMPLITUDE): the peak value of the reference sine (R147). -/
  A : Int
  /-- `TONE_LUT`: the tone LUT ROM, `N_C` signed 16-bit values (R50, R51). -/
  toneLut : List Int
  deriving DecidableEq, Repr

/-- CFG-A of 95_test_vectors.md Part 2, the configuration its programs start in. -/
def Config.cfgA : Config := { U := 1, nC := 4, A := 16384, toneLut := [0, 16384, 0, -16384] }

/-- CFG-B of 95_test_vectors.md Part 2: as CFG-A with `U = 2`. -/
def Config.cfgB : Config := { Config.cfgA with U := 2 }

end Sys2Proof
end

