-- ==== Sys2Proof/Syntax.lean ====
section
/-! DEFINITION. The command set: one constructor for each row of spec/opcode_table.json (R71). No command has an
operand, an immediate or an addressing mode (R73), so no constructor has a field. -/

namespace Sys2Proof

/-- The eight symbol commands, one for each value of `op` (R71, R74). -/
inductive Instr where
  /-- `DOT`, code 0b000 (R101). -/
  | dot
  /-- `DASH`, code 0b001 (R102). -/
  | dash
  /-- `LSEP`, the letter separator, code 0b010 (R120). -/
  | lsep
  /-- `WGAP`, the word gap, code 0b011 (R121). -/
  | wgap
  /-- `EOL`, the end of a line, code 0b100 (R122). -/
  | eol
  /-- The reserved code 0b101 (R72, R123). -/
  | reserved5
  /-- The reserved code 0b110 (R72, R123). -/
  | reserved6
  /-- The reserved code 0b111 (R72, R123). -/
  | reserved7
  deriving DecidableEq, Repr

/-- A mark symbol: the part of the alphabet that sounds (R12). -/
def Instr.isMark : Instr → Bool
  | .dot => true
  | .dash => true
  | .lsep => false
  | .wgap => false
  | .eol => false
  | .reserved5 => false
  | .reserved6 => false
  | .reserved7 => false

/-- A separator: a symbol that only raises the gap requirement (R120, R121). -/
def Instr.isSeparator : Instr → Bool
  | .dot => false
  | .dash => false
  | .lsep => true
  | .wgap => true
  | .eol => false
  | .reserved5 => false
  | .reserved6 => false
  | .reserved7 => false

/-- The `legal` column of spec/opcode_table.json: the reserved codes are illegal (R72). -/
def Instr.isLegal : Instr → Bool
  | .dot => true
  | .dash => true
  | .lsep => true
  | .wgap => true
  | .eol => true
  | .reserved5 => false
  | .reserved6 => false
  | .reserved7 => false

end Sys2Proof
end

