-- ==== Sys2Proof/WellFormed.lean ====
section
/-! DEFINITION. What is checked before anything runs: the configuration (R7). An instruction has no field (R70, R73),
so every `Instr` is well-formed as it stands. -/

namespace Sys2Proof

/-- Every command is well-formed: no field holds a register, an immediate or a mode (R70, R73). -/
def Instr.wellFormed (_ : Instr) : Bool := true

/-- R7: a configuration is well-formed only if all of these hold. An ill-formed one is refused and given no step. -/
abbrev Config.WellFormed (c : Config) : Prop :=
  1 ≤ c.U ∧ 1 ≤ c.nC ∧ (0 ≤ c.A ∧ c.A ≤ 32767) ∧ c.toneLut.length = c.nC ∧
    ∀ v ∈ c.toneLut, -32768 ≤ v ∧ v ≤ 32767

end Sys2Proof
end

