-- ==== Sys2Proof/Decode.lean ====
section
/-! DEFINITION. The one format S3 (R70): decoding is total on 3-bit words (R74), and `encode` is written from the same
opcode map (R71). A word with a bit above bit 2 is no symbol word and is rejected by name. -/

namespace Sys2Proof

/-- Why a number is no symbol word. -/
inductive DecodeError where
  /-- A symbol word has the bits [2:0] only (R70); this number needs more. -/
  | wordWiderThanThreeBits
  deriving DecidableEq, Repr

/-- The opcode map of R71, read from bit 2 down: total, each word exactly one command (R74). -/
def decode (op : SymCode) : Instr :=
  match op.getLsbD 2, op.getLsbD 1, op.getLsbD 0 with
  | false, false, false => .dot
  | false, false, true => .dash
  | false, true, false => .lsep
  | false, true, true => .wgap
  | true, false, false => .eol
  | true, false, true => .reserved5
  | true, true, false => .reserved6
  | true, true, true => .reserved7

/-- The word of a command, from the opcode map of R71. -/
def encode : Instr → SymCode
  | .dot => 0b000#3
  | .dash => 0b001#3
  | .lsep => 0b010#3
  | .wgap => 0b011#3
  | .eol => 0b100#3
  | .reserved5 => 0b101#3
  | .reserved6 => 0b110#3
  | .reserved7 => 0b111#3

/-- Decoding of any number laid out as a symbol word: the bits above bit 2 must be 0 (R70). -/
def decodeWord (w : Nat) : Except DecodeError Instr :=
  if w < 8 then .ok (decode (BitVec.ofNat 3 w)) else .error .wordWiderThanThreeBits

/-- The instruction the decoder reads from an opcode-table word `w`, numbered as spec/opcode_table.json numbers it.
A symbol word is three bits (R70): the bits up to a whole byte are 0, so `nbits` decides nothing. -/
def decodeTableWord (_nbits w : Nat) : Option Instr :=
  match decodeWord w with
  | .ok i => some i
  | .error _ => none

end Sys2Proof
end

