-- ==== Sys2Proof/Machine/State.lean ====
section
/-! DEFINITION. The state of the MTR (10_state.md), the values of its input ports over the coming steps (R33 to R35),
the record of the two streams (R9, R50), the reasons a step can stop, and the state after reset (R37). -/

namespace Sys2Proof.Machine

/-- `phase`, the control state of the sequencer (R23). Its hardware encoding is not architectural. -/
inductive Phase where
  /-- No output is owed; the block can accept a symbol. -/
  | idle
  /-- The silence top-up before a mark. -/
  | pre
  /-- The tone blocks of a mark. -/
  | tone
  /-- The intra-character gap after a mark. -/
  | post
  /-- A fault is recorded; the block is stopped until reset. -/
  | fault
  deriving DecidableEq, Repr

/-- The values of the input ports at one step (R33, R34, R35). -/
structure Inputs where
  /-- `rst`: reset is applied (R35, R230). -/
  rst : Bool
  /-- `sym_valid`: the host offers a symbol (R33). -/
  symValid : Bool
  /-- `sym_code`: the offered symbol code (R33). -/
  symCode : SymCode
  /-- `snk_ready`: the sink takes the beat (R34). -/
  snkReady : Bool
  /-- `snk_err`: the sink fails the beat (R34). -/
  snkErr : Bool
  deriving DecidableEq, Repr

/-- Nothing is offered and nothing is answered: what the ports carry when a state lists no further input.
[DESIGN CHOICE: notes/assumptions/2.md] -/
def Inputs.quiet : Inputs :=
  { rst := false, symValid := false, symCode := 0, snkReady := false, snkErr := false }

/-- The host offers the code `c`, and nothing else happens at the ports. -/
def Inputs.offer (c : SymCode) : Inputs := { Inputs.quiet with symValid := true, symCode := c }

/-- The sink takes the beat, and nothing else happens at the ports. -/
def Inputs.take : Inputs := { Inputs.quiet with snkReady := true }

/-- The sink fails the beat, and nothing else happens at the ports. -/
def Inputs.fail : Inputs := { Inputs.quiet with snkErr := true }

/-- Reset is applied, and nothing else happens at the ports. -/
def Inputs.reset : Inputs := { Inputs.quiet with rst := true }

/-- The state of the block with its environment: the constant state (R20), the dynamic state (R23 to R30), the coming
values of the input ports, and the record of the two streams that is the observation of a run (R9).
Plain data throughout. -/
structure State where
  /-- The configuration and with it the tone LUT ROM: constant, written by no event (R20, R51). -/
  cfg : Config
  /-- `phase` (R23). -/
  phase : Phase
  /-- `blk_left`: the blocks left in the current phase, the one being emitted included (R24). -/
  blkLeft : Nat
  /-- `idx`: the index of the next sample in the current block (R25). -/
  idx : Nat
  /-- `tone_units`: the length in units of the mark in progress (R26). -/
  toneUnits : Nat
  /-- `need`: the gap requirement in units (R27). -/
  need : Nat
  /-- `seen_mark`: the current line has rendered a mark (R28). -/
  seenMark : Bool
  /-- `fault_cause` (R29). -/
  faultCause : BitVec 2
  /-- `fault_info` (R30). -/
  faultInfo : BitVec 3
  /-- The values of the input ports at the coming steps, the next one first (R33 to R35).
  The model's own field: notes/assumptions/2.md. -/
  inputs : List Inputs
  /-- The symbol codes accepted so far, oldest first (R9, R50). The model's own field: notes/assumptions/4.md. -/
  accepted : List SymCode
  /-- The samples the sink took so far, oldest first (R9, R50). The model's own field: notes/assumptions/4.md. -/
  taken : List Sample
  deriving DecidableEq, Repr

/-- Why the model stops. Each of these is an UNREACHABLE state of the block, to which the spec gives no meaning; the
block's own faults (R200) are next states, not these. -/
inductive Fault where
  /-- The LUT is read at an index not below `N_C` (R52, 93 I10). Raised by `memRead`, which the beat step calls.
  Safe: the spec says a model faults here. -/
  | lutIndexOutOfRange
  /-- The state holds the reserved cause `0b11`, which is never written (R29, 93 I6). Raised by the choice of the next
  event. Safe: the spec says a model faults here. -/
  | reservedFaultCause
  /-- The state breaks an invariant of R38, so it is unreachable and "not given a meaning". Raised by the choice of the
  next event. Safe. -/
  | outsideInvariants
  deriving DecidableEq, Repr

/-- Why the model refuses. -/
inductive Refusal where
  /-- No meaning for the instruction yet. No arm of `exec` answers this. Safe. -/
  | notModelled (mnemonic : String)
  /-- The configuration is ill-formed, and "a model refuses an ill-formed configuration at elaboration and gives it no
  step" (R7). Raised by `step`. Safe. -/
  | illFormedConfig
  deriving DecidableEq, Repr

/-- The state right after reset of a block elaborated with the configuration `c` (R37, R233): every dynamic field at
the value of R37, no input listed, both streams empty. -/
def State.resetIn (c : Config) : State :=
  { cfg := c, phase := .idle, blkLeft := 0, idx := 0, toneUnits := 1, need := 1, seenMark := false,
    faultCause := 0b00#2, faultInfo := 0b000#3, inputs := [], accepted := [], taken := [] }

/-- The machine right after reset (R37), elaborated with CFG-A, the configuration in which the programs of
95_test_vectors.md Part 4 start. The OPEN parameters have no value in the spec; every state carries its own, and no
statement needs these values. [DESIGN CHOICE: notes/assumptions/1.md] -/
def State.reset : State := State.resetIn Config.cfgA

end Sys2Proof.Machine
end

