-- ==== Sys2Proof/Machine/Lut.lean ====
section
/-! DEFINITION. The storage of R50: the tone LUT ROM and its byte view (R51, R52), the silence block (R53), the two's
complement and little-endian helpers (R10, R54), and the reference generator of the LUT as a relation (R147, R148). -/

namespace Sys2Proof.Machine

/-- `bits16(x)`: the 16-bit two's-complement pattern of `x` (R10). -/
def bits16 (x : Int) : Sample := BitVec.ofInt 16 x

/-- `v[7:0]`, the low and earlier byte of a sample (R54). -/
def lowByte (v : Sample) : Byte := v.extractLsb' 0 8

/-- `v[15:8]`, the high and later byte of a sample (R54). -/
def highByte (v : Sample) : Byte := v.extractLsb' 8 8

/-- `MemRead(LUT, k)` (R11, R52): entry `k`, with no side effect; an index with no entry faults. -/
def memRead (c : Config) (k : Nat) : Except Fault Int :=
  match c.toneLut[k]? with
  | some v => .ok v
  | none => .error .lutIndexOutOfRange

/-- The tone block: one cycle, the entries of the LUT as samples in ascending order (R12, R143). -/
def toneBlock (c : Config) : List Sample := c.toneLut.map bits16

/-- The silence block: `N_C` samples of `0x0000` (R50, R53). -/
def silenceBlock (c : Config) : List Sample := List.replicate c.nC 0#16

/-- The byte view of a stream of samples: each sample's low byte, then its high byte (R52, R54). -/
def bytesOf (l : List Sample) : List Byte := l.flatMap fun v => [lowByte v, highByte v]

/-- Byte `a` of the LUT's byte view: `2k` is the low byte of entry `k` and `2k+1` the high byte (R52). -/
def lutByte (c : Config) (a : Nat) : Except Fault Byte :=
  match memRead c (a / 2) with
  | .ok v => .ok (if a % 2 = 0 then lowByte (bits16 v) else highByte (bits16 v))
  | .error f => .error f

/-- The cells of `vs` laid out as little-endian 16-bit words from the byte address `a` on. -/
def cellsFrom (a : Nat) : List Int → List Host.Cell
  | [] => []
  | v :: vs => (a, lowByte (bits16 v)) :: (a + 1, highByte (bits16 v)) :: cellsFrom (a + 2) vs

/-- The whole ROM as memory cells: the `2*N_C` bytes of the byte view (R50, R52). The block has no other memory, and an
address that is not listed does not exist. -/
def lutCells (c : Config) : List Host.Cell := cellsFrom 0 c.toneLut

/-- The canonical form of a memory: the addresses strictly rise. An unlisted address reads as nothing (it does not
exist), so no entry can equal what it reads as. -/
abbrev Memory.wf (m : List Host.Cell) : Prop := m.Pairwise fun x y => x.1 < y.1

/-- `round_half_away` on the rationals (R148): the nearest integer, and the one farther from zero when halfway. -/
def roundHalfAway (q : ℚ) : Int :=
  if 0 ≤ q then (q + 1 / 2).floor else -((-q + 1 / 2).floor)

/-- `n = round_half_away(x)` for a real `x` (R148): `n` is nearest to `x`, and when `x` is exactly halfway between two
integers, `n` is the one farther from zero. A relation, so that the exact sine of R147 can be spoken of. -/
def RoundsHalfAway (x : ℝ) (n : Int) : Prop :=
  |x - n| ≤ 1 / 2 ∧ (|x - n| = 1 / 2 → |x| < |(n : ℝ)|)

/-- The exact value the reference generator rounds for entry `k`: `A * sin(2 * pi * k / N_C)` (R147). A relation
between the entry and the configuration, so that no real number has to be computed. -/
def RoundsReferenceSine (c : Config) (k : Nat) (n : Int) : Prop :=
  RoundsHalfAway (c.A * Real.sin (2 * Real.pi * k / c.nC)) n

/-- The table is the reference generator's (R147). A configuration need not meet this: `TONE_LUT` is a parameter, and
the block never recomputes it. -/
def IsReferenceTable (c : Config) : Prop :=
  ∀ k v, c.toneLut[k]? = some v → RoundsReferenceSine c k v

end Sys2Proof.Machine
end

