-- ==== Sys2Proof/Machine/Operands.lean ====
section
/-! DEFINITION. No command has an operand (R73): what a command works on is a duration, which comes from the
configuration and from `need` and `seen_mark`. This file holds every conversion of durations (R22, R144 to R146), the
top-up a mark reads from the state (R100), and the counter widths (R151). -/

namespace Sys2Proof.Machine

/-- The blocks in `n` units (R22, R144). -/
def unitBlocks (c : Config) (n : Nat) : Nat := n * c.U

/-- The samples, which are the beats, in `n` units (R144). -/
def unitSamples (c : Config) (n : Nat) : Nat := unitBlocks c n * c.nC

/-- The bytes in `n` units (R55, R144). -/
def unitBytes (c : Config) (n : Nat) : Nat := beatBytes * unitSamples c n

/-- `DOT_BLOCKS` (R22). -/
def dotBlocks (c : Config) : Nat := unitBlocks c dotUnits

/-- `DASH_BLOCKS` (R22). -/
def dashBlocks (c : Config) : Nat := unitBlocks c dashUnits

/-- `IGAP_BLOCKS` (R22). -/
def igapBlocks (c : Config) : Nat := unitBlocks c igapUnits

/-- `LGAP_BLOCKS` (R22). -/
def lgapBlocks (c : Config) : Nat := unitBlocks c lgapUnits

/-- `WGAP_BLOCKS` (R22). -/
def wgapBlocks (c : Config) : Nat := unitBlocks c wgapUnits

/-- The seconds `n` units last when the sink plays without a gap (R145). A reading for people: no state rule uses it. -/
def unitSeconds (c : Config) (n : Nat) : ℚ := unitSamples c n / sampleRate

/-- The fundamental frequency in Hz of a repeated block (R146). A reading for people: no state rule uses it. -/
def toneFrequency (c : Config) : ℚ := sampleRate / c.nC

/-- `pre` of `MARK(d)`: the units of top-up silence a mark accepted in `s` emits before its tone, none for the first
mark of a line (R100). -/
def topUpUnits (s : State) : Nat := if s.seenMark then s.need - igapUnits else 0

/-- The least number of bits for `blk_left` (R151). -/
def blkLeftBits (c : Config) : Nat := Nat.clog 2 (6 * c.U + 1)

/-- The least number of bits for `idx` (R151). -/
def idxBits (c : Config) : Nat := if c.nC = 1 then 1 else Nat.clog 2 c.nC

end Sys2Proof.Machine
end

