-- ==== Sys2Proof/Machine/Flags.lean ====
section
/-! DEFINITION. The block has no condition flags. Its status is the set of level outputs of R35 and the channel outputs
of R33 and R34, all functions of the state (R36). -/

namespace Sys2Proof.Machine

/-- A beat is owed: `phase` is `PRE`, `TONE` or `POST` (R35). -/
def Phase.isBusy : Phase → Bool
  | .idle => false
  | .pre => true
  | .tone => true
  | .post => true
  | .fault => false

/-- `sym_ready` (R36). -/
def State.symReady (s : State) : Bool := s.phase == .idle

/-- `snk_valid` (R36). -/
def State.snkValid (s : State) : Bool := s.phase.isBusy

/-- `sample(phase, idx)` of R141; `0` also in `IDLE` and `FAULT`, by R36. A read outside the LUT faults (R52). -/
def sampleOf (c : Config) (p : Phase) (k : Nat) : Except Fault Int :=
  match p with
  | .tone => memRead c k
  | .pre => .ok 0
  | .post => .ok 0
  | .idle => .ok 0
  | .fault => .ok 0

/-- `snk_data` (R36). -/
def State.snkData (s : State) : Except Fault Sample :=
  match sampleOf s.cfg s.phase s.idx with
  | .ok v => .ok (bits16 v)
  | .error f => .error f

/-- `busy` (R36). -/
def State.busy (s : State) : Bool := s.snkValid

/-- `fault` (R36). -/
def State.faulted (s : State) : Bool := s.phase == .fault

/-- `fault_cause = NONE` (R29). -/
def causeNone : BitVec 2 := 0b00#2

/-- `fault_cause = ILLEGAL_SYMBOL` (R29). -/
def causeIllegalSymbol : BitVec 2 := 0b01#2

/-- `fault_cause = SINK_ERROR` (R29). -/
def causeSinkError : BitVec 2 := 0b10#2

/-- The reserved cause, never written (R29). -/
def causeReserved : BitVec 2 := 0b11#2

/-- The values of all output ports (R33 to R35). -/
structure Outputs where
  symReady : Bool
  snkValid : Bool
  snkData : Sample
  busy : Bool
  fault : Bool
  faultCause : BitVec 2
  faultInfo : BitVec 3
  deriving DecidableEq, Repr

/-- The output ports in a state (R36). -/
def State.outputs (s : State) : Except Fault Outputs :=
  match s.snkData with
  | .ok v =>
    .ok { symReady := s.symReady, snkValid := s.snkValid, snkData := v, busy := s.busy, fault := s.faulted,
          faultCause := s.faultCause, faultInfo := s.faultInfo }
  | .error f => .error f

end Sys2Proof.Machine
end

