-- ==== Sys2Proof/Machine/Ops.lean ====
section
/-! DEFINITION. The operations the events share: the acceptance actions (R100, R120 to R122), taking a fault (R201) and
the only way out of it, reset (R230), the advance after a taken beat (R142), and the invariants of R38 that a model may
assert. -/

namespace Sys2Proof.Machine

/-- The values the input ports have at this step. -/
def State.input (s : State) : Inputs := s.inputs.headD Inputs.quiet

/-- This step's input values are past. -/
def State.nextInput (s : State) : State := { s with inputs := s.inputs.tail }

/-- The symbol channel hands over the code `c`: it is consumed, once, in order (R33, R58). -/
def State.recordAccepted (c : SymCode) (s : State) : State := { s with accepted := s.accepted ++ [c] }

/-- The sink takes the sample `v`, whole and in order (R34, R57). -/
def State.recordTaken (v : Sample) (s : State) : State := { s with taken := s.taken ++ [v] }

/-- A symbol offered in `s` has the effect `s'` if the block is ready for it. It is not accepted and has none
otherwise (R33, R36, R60). -/
def whenReady (s s' : State) : Host.Outcome State Fault Refusal := .next (if s.symReady then s' else s)

/-- `MARK(d)` (R100). -/
def State.mark (d : Nat) (s : State) : State :=
  { s with
    toneUnits := d
    seenMark := true
    need := igapUnits
    idx := 0
    phase := if 0 < topUpUnits s then .pre else .tone
    blkLeft := if 0 < topUpUnits s then unitBlocks s.cfg (topUpUnits s) else unitBlocks s.cfg d }

/-- A separator raises the gap requirement to at least `n` units (R120, R121). -/
def State.raiseNeed (n : Nat) (s : State) : State := { s with need := max s.need n }

/-- The end of a line discards the gap requirement and starts a fresh line (R122). -/
def State.endLine (s : State) : State := { s with need := igapUnits, seenMark := false }

/-- `raise Fault(cause, info)`: taking a fault (R201). The other fields keep their values. -/
def State.raiseFault (cause : BitVec 2) (info : BitVec 3) (s : State) : State :=
  { s with phase := .fault, faultCause := cause, faultInfo := info }

/-- Reset, the only way out of `FAULT` and the only way to cancel a line (R230, R231): every dynamic field takes its
value of R37. The configuration with the LUT is not changed, and what the streams carried stays carried. -/
def State.applyReset (s : State) : State :=
  { s with
    phase := .idle
    blkLeft := 0
    idx := 0
    toneUnits := 1
    need := 1
    seenMark := false
    faultCause := causeNone
    faultInfo := 0b000#3 }

/-- The last block of the phase is complete (R142, the case on `st.phase`). -/
def State.endPhase (s : State) : State :=
  match s.phase with
  | .pre => { s with phase := .tone, blkLeft := unitBlocks s.cfg s.toneUnits }
  | .tone => { s with phase := .post, blkLeft := unitBlocks s.cfg igapUnits }
  | .post => { s with phase := .idle, blkLeft := 0 }
  | .idle => s
  | .fault => s

/-- The state advances when the sink has taken a beat (R142). -/
def State.advance (s : State) : State :=
  if s.idx + 1 < s.cfg.nC then { s with idx := s.idx + 1 }
  else if 1 < s.blkLeft then { s with idx := 0, blkLeft := s.blkLeft - 1 }
  else State.endPhase { s with idx := 0 }

/-- The invariants of R38, one line each. -/
abbrev State.Consistent (s : State) : Prop :=
  (s.phase = .idle → s.blkLeft = 0 ∧ s.idx = 0) ∧
  (s.phase.isBusy = true → 1 ≤ s.blkLeft ∧ s.idx < s.cfg.nC) ∧
  (s.phase = .pre → s.blkLeft ≤ 6 * s.cfg.U) ∧
  (s.phase = .tone → s.blkLeft ≤ s.toneUnits * s.cfg.U) ∧
  (s.phase = .post → s.blkLeft ≤ s.cfg.U) ∧
  ((s.need = 1 ∨ s.need = 3 ∨ s.need = 7) ∧ (s.toneUnits = 1 ∨ s.toneUnits = 3)) ∧
  (s.faultCause = causeNone ↔ s.phase ≠ .fault)

end Sys2Proof.Machine
end

