-- ==== Sys2Proof/Machine/Marks.lean ====
section
/-! DEFINITION. The mark symbols (40_marks.md): what happens when one is accepted. Its beats are the beat step's. -/

namespace Sys2Proof.Machine

/-- `DOT` (R101): `on Accept(0b000): MARK(DOT_UNITS)`. -/
def execDot (s : State) : Host.Outcome State Fault Refusal := whenReady s (s.mark dotUnits)

/-- `DASH` (R102): `on Accept(0b001): MARK(DASH_UNITS)`. -/
def execDash (s : State) : Host.Outcome State Fault Refusal := whenReady s (s.mark dashUnits)

end Sys2Proof.Machine
end

