-- ==== Sys2Proof/Machine/Reserved.lean ====
section
/-! DEFINITION. The reserved codes (41_separators.md, section 4): accepting one takes the `ILLEGAL_SYMBOL` fault with
the code recorded (R123, R201, R202). -/

namespace Sys2Proof.Machine

/-- The reserved code 0b101 (R123). -/
def execReserved5 (s : State) : Host.Outcome State Fault Refusal :=
  whenReady s (s.raiseFault causeIllegalSymbol 0b101#3)

/-- The reserved code 0b110 (R123). -/
def execReserved6 (s : State) : Host.Outcome State Fault Refusal :=
  whenReady s (s.raiseFault causeIllegalSymbol 0b110#3)

/-- The reserved code 0b111 (R123). -/
def execReserved7 (s : State) : Host.Outcome State Fault Refusal :=
  whenReady s (s.raiseFault causeIllegalSymbol 0b111#3)

end Sys2Proof.Machine
end

