-- ==== Sys2Proof/Machine/Separators.lean ====
section
/-! DEFINITION. The separator and framing symbols (41_separators.md, sections 1 to 3). None emits a beat. -/

namespace Sys2Proof.Machine

/-- `LSEP` (R120): `st.need <- max(st.need, LGAP_UNITS)`. -/
def execLsep (s : State) : Host.Outcome State Fault Refusal := whenReady s (s.raiseNeed lgapUnits)

/-- `WGAP` (R121): `st.need <- max(st.need, WGAP_UNITS)`. -/
def execWgap (s : State) : Host.Outcome State Fault Refusal := whenReady s (s.raiseNeed wgapUnits)

/-- `EOL` (R122): `st.need <- IGAP_UNITS` and `st.seen_mark <- 0`. -/
def execEol (s : State) : Host.Outcome State Fault Refusal := whenReady s s.endLine

end Sys2Proof.Machine
end

