-- ==== Sys2Proof/Machine/Dispatch.lean ====
section
/-! DEFINITION. The acceptance action of each command (R71): one arm per constructor of `Instr`. -/

namespace Sys2Proof.Machine

def exec (i : Instr) (s : State) : Host.Outcome State Fault Refusal :=
  match i with
  -- marks (40_marks.md)
  | .dot => Sys2Proof.Machine.execDot s
  | .dash => Sys2Proof.Machine.execDash s
  -- separators and framing (41_separators.md)
  | .lsep => Sys2Proof.Machine.execLsep s
  | .wgap => Sys2Proof.Machine.execWgap s
  | .eol => Sys2Proof.Machine.execEol s
  -- reserved codes (41_separators.md, section 4)
  | .reserved5 => Sys2Proof.Machine.execReserved5 s
  | .reserved6 => Sys2Proof.Machine.execReserved6 s
  | .reserved7 => Sys2Proof.Machine.execReserved7 s

end Sys2Proof.Machine
end

