-- ==== Sys2Proof/Machine/Events.lean ====
section
/-! DEFINITION. The events of R8: which one the port values make happen in a state (R33, R34, R140, R205, R230), and
what each one does. -/

namespace Sys2Proof.Machine

/-- The four events of R8. -/
inductive Event where
  /-- `Accept(code)`: a symbol handshake on the input channel (R33). -/
  | accept (c : SymCode)
  /-- `Beat(v)`: the sink takes the sample `v` (R34). -/
  | beat (v : Sample)
  /-- `SinkFail`: the sink fails the offered beat (R34, R203). -/
  | sinkFail
  /-- `Reset` (R230). -/
  | reset
  deriving DecidableEq, Repr

/-- The sink's answer to an offered sample `v`: a failure wins over a take (R34, R205), and neither is a stall, in which
no event happens (R140, R149). -/
def sinkAnswer (v : Sample) (i : Inputs) : Option Event :=
  if i.snkErr then some .sinkFail else if i.snkReady then some (.beat v) else none

/-- The event at the channels when the block offers `v` or is ready for a symbol. In `IDLE` only the symbol channel is
open, in `PRE`, `TONE` and `POST` only the sink's, and in `FAULT` neither (R205, R206). -/
def channelEvent (p : Phase) (v : Sample) (i : Inputs) : Option Event :=
  match p with
  | .idle => if i.symValid then some (.accept i.symCode) else none
  | .pre => sinkAnswer v i
  | .tone => sinkAnswer v i
  | .post => sinkAnswer v i
  | .fault => none

/-- The event, if any, that the input values `i` make happen in `s`. Reset comes before everything and may happen in
any state (R230). A state that no run reaches is given no meaning (R38, R52, 93 I6 and I10). -/
def eventAt (s : State) (i : Inputs) : Except Fault (Option Event) :=
  if i.rst then .ok (some .reset)
  else
    match s.snkData with
    | .error f => .error f
    | .ok v =>
      if s.faultCause = causeReserved then .error .reservedFaultCause
      else if s.Consistent then .ok (channelEvent s.phase v i)
      else .error .outsideInvariants

/-- What an event does: an accepted symbol is decoded and runs (R74), a taken beat advances the state (R142), a failed
one takes `SINK_ERROR` (R203), and reset resets (R230). -/
def perform (e : Event) (s : State) : Host.Outcome State Fault Refusal :=
  match e with
  | .accept c => exec (decode c) (s.recordAccepted c)
  | .beat v => .next (s.advance.recordTaken v)
  | .sinkFail => .next (s.raiseFault causeSinkError 0b000#3)
  | .reset => .next s.applyReset

/-- One step in a well-formed configuration: the port values of this step make at most one event happen; with none, the
block waits or is stalled and keeps every field (R149, R212). -/
def stepEvent (s : State) : Host.Outcome State Fault Refusal :=
  match eventAt s s.input with
  | .error f => .fault f
  | .ok none => .next s.nextInput
  | .ok (some e) => perform e s.nextInput

/-- The state in which the next step accepts the code `c`: an idle block without a fault, to which the host offers `c`
first of all. Every other field is as in `s`, and in an idle `s` with the fault registers clear only the offer is new. -/
def State.offered (c : SymCode) (s : State) : State :=
  { s with
    phase := .idle
    blkLeft := 0
    idx := 0
    faultCause := causeNone
    faultInfo := 0b000#3
    inputs := Inputs.offer c :: s.inputs }

end Sys2Proof.Machine
end

