-- ==== Sys2Proof/Machine/Step.lean ====
section
/-! DEFINITION. The step: one set of values at the input ports, and with it at most one event (R8). -/

namespace Sys2Proof.Machine

/-- One step. An ill-formed configuration is refused and given no step (R7). -/
def step (s : State) : Host.Outcome State Fault Refusal :=
  if s.cfg.WellFormed then stepEvent s else .refused .illFormedConfig

/-- `s` with the table word `w` offered on the symbol channel, so that the very next step accepts and runs it
(notes/assumptions/12.md). -/
def State.withFetchWord (s : State) (_nbits w : Nat) : State := s.offered (BitVec.ofNat 3 w)

end Sys2Proof.Machine
end

