-- ==== Sys2Proof/Machine/LineEncoder.lean ====
section
/-! DEFINITION. The host's duty (48_host_encoder.md): the code table, the encoder and the line framing, which say what
symbols the host sends. The block never sees a character; nothing here is part of its state. -/

namespace Sys2Proof.Machine

/-- A mark of a character's code (R162). -/
inductive Mark where
  | dot
  | dash
  deriving DecidableEq, Repr

/-- The symbol of a mark. -/
def Mark.symbol : Mark → Instr
  | .dot => .dot
  | .dash => .dash

/-- The host's tables (R6, R162): the codes of the letters and digits, and `PUNCT_TABLE`, which is OPEN. -/
structure CodeTable where
  codes : List (Char × List Mark)
  punct : List (Char × List Mark)
  deriving DecidableEq, Repr

/-- The International Morse codes of A to M (R165). -/
def morseLettersAtoM : List (Char × List Mark) :=
  [('A', [.dot, .dash]),
   ('B', [.dash, .dot, .dot, .dot]),
   ('C', [.dash, .dot, .dash, .dot]),
   ('D', [.dash, .dot, .dot]),
   ('E', [.dot]),
   ('F', [.dot, .dot, .dash, .dot]),
   ('G', [.dash, .dash, .dot]),
   ('H', [.dot, .dot, .dot, .dot]),
   ('I', [.dot, .dot]),
   ('J', [.dot, .dash, .dash, .dash]),
   ('K', [.dash, .dot, .dash]),
   ('L', [.dot, .dash, .dot, .dot]),
   ('M', [.dash, .dash])]

/-- The International Morse codes of N to Z (R165). -/
def morseLettersNtoZ : List (Char × List Mark) :=
  [('N', [.dash, .dot]),
   ('O', [.dash, .dash, .dash]),
   ('P', [.dot, .dash, .dash, .dot]),
   ('Q', [.dash, .dash, .dot, .dash]),
   ('R', [.dot, .dash, .dot]),
   ('S', [.dot, .dot, .dot]),
   ('T', [.dash]),
   ('U', [.dot, .dot, .dash]),
   ('V', [.dot, .dot, .dot, .dash]),
   ('W', [.dot, .dash, .dash]),
   ('X', [.dash, .dot, .dot, .dash]),
   ('Y', [.dash, .dot, .dash, .dash]),
   ('Z', [.dash, .dash, .dot, .dot])]

/-- The International Morse codes of the digits (R165). -/
def morseDigits : List (Char × List Mark) :=
  [('0', [.dash, .dash, .dash, .dash, .dash]),
   ('1', [.dot, .dash, .dash, .dash, .dash]),
   ('2', [.dot, .dot, .dash, .dash, .dash]),
   ('3', [.dot, .dot, .dot, .dash, .dash]),
   ('4', [.dot, .dot, .dot, .dot, .dash]),
   ('5', [.dot, .dot, .dot, .dot, .dot]),
   ('6', [.dash, .dot, .dot, .dot, .dot]),
   ('7', [.dash, .dash, .dot, .dot, .dot]),
   ('8', [.dash, .dash, .dash, .dot, .dot]),
   ('9', [.dash, .dash, .dash, .dash, .dot])]

/-- The default table (R165) with a given punctuation table. [PRESUMED by the spec itself: 93 G1,
notes/assumptions/17.md] -/
def CodeTable.international (punct : List (Char × List Mark)) : CodeTable :=
  { codes := morseLettersAtoM ++ morseLettersNtoZ ++ morseDigits, punct := punct }

/-- `upper(c)` for `c` in `a..z`, and `c` itself otherwise (R161). -/
def upperChar (c : Char) : Char :=
  if 97 ≤ c.toNat ∧ c.toNat ≤ 122 then Char.ofNat (c.toNat - 32) else c

/-- The rows of the two tables. -/
def CodeTable.rows (t : CodeTable) : List (Char × List Mark) := t.codes ++ t.punct

/-- The letters and digits every table supports (R162). -/
def lettersAndDigits : List Char :=
  ['A', 'B', 'C', 'D', 'E', 'F', 'G', 'H', 'I', 'J', 'K', 'L', 'M', 'N', 'O', 'P', 'Q', 'R', 'S', 'T', 'U', 'V', 'W', 'X',
   'Y', 'Z'] ++ ['0', '1', '2', '3', '4', '5', '6', '7', '8', '9']

/-- The characters a table has entries for. -/
def CodeTable.keys (rows : List (Char × List Mark)) : List Char := rows.map Prod.fst

/-- R162: exactly one entry per supported character. The supported ones are the letters and digits, each of which has its
entry, the characters of `PUNCT_TABLE`, and the space, which has none, its code being the word gap (R163). Every code
listed is a non-empty sequence of marks. No punctuation character is a lower-case letter, whose entry the lookup of R161
would not find [PRESUMED: notes/assumptions/17.md]. -/
abbrev CodeTable.WellFormed (t : CodeTable) : Prop :=
  (CodeTable.keys t.codes).Perm lettersAndDigits ∧ (CodeTable.keys t.rows).Nodup ∧
  (∀ r ∈ t.punct, r.1 ≠ ' ' ∧ upperChar r.1 = r.1) ∧ ∀ r ∈ t.rows, r.2 ≠ []

/-- Looking up a character (R161): its code, or nothing for an unsupported one. The space's code is `WGAP` (R163). -/
def CodeTable.lookup (t : CodeTable) (c : Char) : Option (List Instr) :=
  if c = ' ' then some [.wgap] else (t.rows.lookup (upperChar c)).map fun code => code.map Mark.symbol

/-- `CHR c` (R76): the code and a letter separator, or nothing for an unsupported character (R166, R169). -/
def CodeTable.encodeChar (t : CodeTable) (c : Char) : List Instr :=
  match t.lookup c with
  | some code => code ++ [.lsep]
  | none => []

/-- `encode_symbols(line)` (R167): the marker stands after every supported character, the space included. -/
def CodeTable.encodeSymbols (t : CodeTable) (line : List Char) : List Instr := line.flatMap t.encodeChar

/-- What the host sends for one line (R168), which is `LINE "text"` (R76). -/
def CodeTable.sendLine (t : CodeTable) (line : List Char) : List Instr := t.encodeSymbols line ++ [.eol]

/-- What the host sends for several lines: one at a time, in input order (R168). -/
def CodeTable.sendLines (t : CodeTable) (lines : List (List Char)) : List Instr := lines.flatMap t.sendLine

/-- The two pseudo-instructions the host expands (R76). -/
inductive Pseudo where
  | chr (c : Char)
  | line (text : List Char)
  deriving DecidableEq, Repr

/-- The expansion of a pseudo-instruction; the block sees only the result (R76). -/
def CodeTable.expand (t : CodeTable) : Pseudo → List Instr
  | .chr c => t.encodeChar c
  | .line text => t.sendLine text

/-- The port values of a host that offers these symbols one after another, with no answer of the sink. -/
def offers (l : List Instr) : List Inputs := l.map fun i => Inputs.offer (encode i)

/-- A symbol of a code as a person sees it (R170). The word gap has no form in the sources (91 N5): `gap` is one. -/
def displaySymbol (gap : List Char) : Instr → List Char
  | .dot => ['.']
  | .dash => ['-']
  | .lsep => []
  | .wgap => gap
  | .eol => []
  | .reserved5 => []
  | .reserved6 => []
  | .reserved7 => []

/-- `encode_display(line)` (R170): the codes of the supported characters, a single space between two letters and none
after the last. How a space character is displayed is not in the sources (91 N5). The model shows it as the parameter
`gap`, set off from the letters and the other spaces beside it like a letter, by one space on each side where it has a
neighbour, so that "A B" shows at least two spaces. [DESIGN CHOICE: notes/assumptions/21.md] -/
def CodeTable.encodeDisplay (t : CodeTable) (gap : List Char) (line : List Char) : List Char :=
  [' '].intercalate ((line.filterMap t.lookup).map fun code => code.flatMap (displaySymbol gap))

end Sys2Proof.Machine
end

