-- ==== Sys2Proof/Machine/Assembler.lean ====
section
/-! DEFINITION. The two ways a symbol program is written (R75): one mnemonic a line, and the compact form of one
character a symbol. They have no semantic effect (92 D25): the block sees the codes only. -/

namespace Sys2Proof.Machine

/-- The mnemonic of a legal command (R71); a reserved code is written as a raw word (R75). -/
def mnemonicLine : Instr → List Char
  | .dot => ['D', 'O', 'T']
  | .dash => ['D', 'A', 'S', 'H']
  | .lsep => ['L', 'S', 'E', 'P']
  | .wgap => ['W', 'G', 'A', 'P']
  | .eol => ['E', 'O', 'L']
  | .reserved5 => ['.', 'w', 'o', 'r', 'd', ' ', '0', 'b', '1', '0', '1']
  | .reserved6 => ['.', 'w', 'o', 'r', 'd', ' ', '0', 'b', '1', '1', '0']
  | .reserved7 => ['.', 'w', 'o', 'r', 'd', ' ', '0', 'b', '1', '1', '1']

/-- A binary digit of `.word 0bNNN`. -/
def binaryDigit : Char → Option Bool
  | '0' => some false
  | '1' => some true
  | _ => none

/-- One line of the mnemonic form: a mnemonic, or `.word 0bNNN` for a raw code (R75). -/
def assembleLine : List Char → Option SymCode
  | ['D', 'O', 'T'] => some 0b000#3
  | ['D', 'A', 'S', 'H'] => some 0b001#3
  | ['L', 'S', 'E', 'P'] => some 0b010#3
  | ['W', 'G', 'A', 'P'] => some 0b011#3
  | ['E', 'O', 'L'] => some 0b100#3
  | ['.', 'w', 'o', 'r', 'd', ' ', '0', 'b', a, b, c] =>
    match binaryDigit a, binaryDigit b, binaryDigit c with
    | some x, some y, some z => some (BitVec.ofBool x ++ BitVec.ofBool y ++ BitVec.ofBool z)
    | _, _, _ => none
  | _ => none

/-- A program in the mnemonic form, one line a command (R75). -/
def assemble (lines : List (List Char)) : Option (List SymCode) := lines.mapM assembleLine

/-- The one-character symbols of the compact form (R75). -/
def compactCode : Char → Option SymCode
  | '.' => some 0b000#3
  | '-' => some 0b001#3
  | '|' => some 0b010#3
  | '_' => some 0b011#3
  | ';' => some 0b100#3
  | _ => none

/-- The digit of a raw reserved code `#5`, `#6`, `#7` (R75). -/
def rawCode : Char → Option SymCode
  | '5' => some 0b101#3
  | '6' => some 0b110#3
  | '7' => some 0b111#3
  | _ => none

/-- A program in the compact form. White space between characters is ignored (R75). -/
def parseCompact : List Char → Option (List SymCode)
  | [] => some []
  | ['#'] => none
  | '#' :: d :: rest =>
    match rawCode d, parseCompact rest with
    | some c, some l => some (c :: l)
    | _, _ => none
  | c :: rest =>
    if c.isWhitespace then parseCompact rest
    else
      match compactCode c, parseCompact rest with
      | some k, some l => some (k :: l)
      | _, _ => none

/-- A command in the compact form (R75). -/
def compactForm : Instr → List Char
  | .dot => ['.']
  | .dash => ['-']
  | .lsep => ['|']
  | .wgap => ['_']
  | .eol => [';']
  | .reserved5 => ['#', '5']
  | .reserved6 => ['#', '6']
  | .reserved7 => ['#', '7']

end Sys2Proof.Machine
end

