-- ==== Sys2Proof/Safety.lean ====
section
/-! DEFINITION. What claims are phrased in: runs and their observation (R8, R9), the legal states, the gap guarantees
of 40_marks.md and 41_separators.md as a rendering of a symbol sequence, and what is still owed in a state. -/

namespace Sys2Proof.Machine

/-- `k` steps, stopping at the first fault or refusal. -/
def runSteps : Nat → State → Host.Outcome State Fault Refusal
  | 0, s => .next s
  | k + 1, s =>
    match step s with
    | .next t => runSteps k t
    | .fault f => .fault f
    | .refused r => .refused r

/-- The observation of a run (R9). -/
structure Observation where
  accepted : List SymCode
  taken : List Sample
  phase : Phase
  faultCause : BitVec 2
  faultInfo : BitVec 3
  deriving DecidableEq, Repr

/-- What is observed of the run that led to `s` (R9). -/
def State.observation (s : State) : Observation :=
  { accepted := s.accepted, taken := s.taken, phase := s.phase, faultCause := s.faultCause, faultInfo := s.faultInfo }

/-- The end of a run (R9): `IDLE`, and the host has no further symbol to offer. -/
abbrev State.IsEnd (s : State) : Prop := s.phase = .idle ∧ ∀ i ∈ s.inputs, i.symValid = false

/-- The legal states: the invariants of R38 and what the other rules say of every reachable state. The reserved cause is
never written (R29), `fault_info` is a reserved code for `ILLEGAL_SYMBOL` and 0 otherwise (R30), the counters stay in
their ranges in every phase (R24, R25, R151), and while output is owed the mark in progress has been counted (R100). -/
structure State.Legal (s : State) : Prop where
  config : s.cfg.WellFormed
  consistent : s.Consistent
  cause : s.faultCause ≠ causeReserved
  infoIllegal : s.faultCause = causeIllegalSymbol → s.faultInfo = 5#3 ∨ s.faultInfo = 6#3 ∨ s.faultInfo = 7#3
  infoOther : s.faultCause ≠ causeIllegalSymbol → s.faultInfo = 0#3
  blkLeftRange : s.blkLeft ≤ 6 * s.cfg.U
  idxRange : s.idx < s.cfg.nC
  busyMark : s.phase.isBusy = true → s.seenMark = true ∧ s.need = 1

/-- The two kinds of block (R12). -/
inductive BlockKind where
  | tone
  | silence
  deriving DecidableEq, Repr

/-- The samples of one block of a kind (R143). -/
def blockOf (c : Config) : BlockKind → List Sample
  | .tone => toneBlock c
  | .silence => silenceBlock c

/-- `n` blocks of a kind, one after another. -/
def blocks (c : Config) (b : BlockKind) (n : Nat) : List Sample := (List.replicate n (blockOf c b)).flatten

/-- A mark's length in units (R21). -/
def markUnits : Instr → Nat
  | .dot => 1
  | .dash => 3
  | .lsep => 0
  | .wgap => 0
  | .eol => 0
  | .reserved5 => 0
  | .reserved6 => 0
  | .reserved7 => 0

/-- The silence in units between two consecutive marks of one line, by what was accepted between them: 7 with a `WGAP`
(R125), 3 with an `LSEP` and no `WGAP` (R124), 1 with neither (R103). -/
def gapUnits (between : List Instr) : Nat :=
  if .wgap ∈ between then 7 else if .lsep ∈ between then 3 else 1

/-- Where a line stands: no mark rendered yet, or the separators accepted since its last mark. -/
abbrev LinePosition := Option (List Instr)

/-- The silence before a mark: none before the first of a line (R127); otherwise the gap, less the one unit that
follows the mark before it. -/
def leadIn : LinePosition → Nat
  | none => 0
  | some seps => gapUnits seps - 1

/-- The line's position after a symbol. -/
def LinePosition.after (p : LinePosition) : Instr → LinePosition
  | .dot => some []
  | .dash => some []
  | .lsep => p.map fun seps => .lsep :: seps
  | .wgap => p.map fun seps => .wgap :: seps
  | .eol => none
  | .reserved5 => p
  | .reserved6 => p
  | .reserved7 => p

/-- The runs of blocks, each with its length in units, that a symbol sequence renders to from a position in a line:
before each mark the rest of its gap, then its tone, then one unit of silence. A mark's last unit of silence is the only
one at the end of a line (R126) and between lines (R128), and nothing follows a reserved code (R123). -/
def renderRuns : LinePosition → List Instr → List (BlockKind × Nat)
  | _, [] => []
  | p, .dot :: l => (.silence, leadIn p) :: (.tone, 1) :: (.silence, 1) :: renderRuns (some []) l
  | p, .dash :: l => (.silence, leadIn p) :: (.tone, 3) :: (.silence, 1) :: renderRuns (some []) l
  | p, .lsep :: l => renderRuns (p.after .lsep) l
  | p, .wgap :: l => renderRuns (p.after .wgap) l
  | _, .eol :: l => renderRuns none l
  | _, .reserved5 :: _ => []
  | _, .reserved6 :: _ => []
  | _, .reserved7 :: _ => []

/-- The whole sample stream of a symbol sequence sent to a block just reset (R143, R144). -/
def renderStream (c : Config) (l : List Instr) : List Sample :=
  (renderRuns none l).flatMap fun r => blocks c r.1 (unitBlocks c r.2)

/-- The rest of the block of which the samples before `k` are out. -/
def restOfBlock (c : Config) (b : BlockKind) (k : Nat) : List Sample := (blockOf c b).drop k

/-- The samples a state still owes the sink, in order: the rest of the block being emitted, the blocks left in the
phase, and the phases that follow (R60, R142). -/
def State.owed (s : State) : List Sample :=
  match s.phase with
  | .idle => []
  | .pre =>
    restOfBlock s.cfg .silence s.idx ++ blocks s.cfg .silence (s.blkLeft - 1) ++
      blocks s.cfg .tone (unitBlocks s.cfg s.toneUnits) ++ blocks s.cfg .silence (igapBlocks s.cfg)
  | .tone =>
    restOfBlock s.cfg .tone s.idx ++ blocks s.cfg .tone (s.blkLeft - 1) ++ blocks s.cfg .silence (igapBlocks s.cfg)
  | .post => restOfBlock s.cfg .silence s.idx ++ blocks s.cfg .silence (s.blkLeft - 1)
  | .fault => []

/-- The line's position after all the symbols of a sequence. -/
def positionAfter (l : List Instr) : LinePosition := l.foldl LinePosition.after none

/-- The beats of one mark of `d` units accepted with `pre` units of top-up: silence, tone, and one unit of silence
(R100, R153). -/
def markStream (c : Config) (pre d : Nat) : List Sample :=
  blocks c .silence (unitBlocks c pre) ++ blocks c .tone (unitBlocks c d) ++ blocks c .silence (igapBlocks c)

/-- The state is faithful to the symbols it accepted. Without a fault, what the sink took and what is still owed make up
the rendering of those symbols, and `seen_mark` and `need` say where the line stands. With a fault, what the sink took is
the beginning of it (R204), and all of it when the fault is a reserved code. -/
structure State.Faithful (s : State) : Prop where
  stream : s.phase ≠ .fault → s.taken ++ s.owed = renderStream s.cfg (s.accepted.map decode)
  symbols : s.phase ≠ .fault → ∀ c ∈ s.accepted, (decode c).isLegal = true
  seen : s.phase ≠ .fault → s.seenMark = (positionAfter (s.accepted.map decode)).isSome
  gap : s.phase ≠ .fault → ∀ seps, positionAfter (s.accepted.map decode) = some seps → s.need = gapUnits seps
  truncated : s.phase = .fault → s.taken <+: renderStream s.cfg (s.accepted.map decode)
  precise : s.faultCause = causeIllegalSymbol → s.taken = renderStream s.cfg (s.accepted.map decode)

/-- The port values of a step in which the sink takes what is offered and there is no reset. -/
abbrev Inputs.Takes (i : Inputs) : Prop := i.rst = false ∧ i.snkErr = false ∧ i.snkReady = true

/-- The port values of a step with no reset and no failing sink: the sink takes or stalls. -/
abbrev Inputs.Calm (i : Inputs) : Prop := i.rst = false ∧ i.snkErr = false

/-- Two states an outside observer cannot tell apart when both are in `FAULT`: they may differ only in the fields no
output exposes there (R201, 93 I11). -/
abbrev State.SameOutside (s t : State) : Prop :=
  s.cfg = t.cfg ∧ s.phase = t.phase ∧ s.faultCause = t.faultCause ∧ s.faultInfo = t.faultInfo ∧
    s.inputs = t.inputs ∧ s.accepted = t.accepted ∧ s.taken = t.taken

end Sys2Proof.Machine
end

