-- ==== Sys2Proof/Certificates/Slice0/Obligations.lean ====
section
/-! DEFINITION. The statements for the provers, each with the rule or the section of spec/ it formalises. A rule marked
there "[decision: …]" is the spec's own choice (92_eei_decisions.md); the docstrings name it. -/

open Sys2Proof Sys2Proof.Machine

/-! ### Reset -/

/-- From R230 (the spec's decision D17). In every state, also a faulted one, a step with `rst = 1` gives every
dynamic field its value of R37, whatever else the ports carry; the offered beat is not delivered, no symbol is accepted,
the configuration stays, and the next mark gets no leading silence. That this reaches also the states no run reaches is the
model's reading (DEDUCED, notes/assumptions/11.md), not R230's own words. -/
def Obligations.ResetWinsAndClearsTheLine : Prop :=
  ∀ (s : State) (i : Inputs) (r : List Inputs), s.cfg.WellFormed → s.inputs = i :: r → i.rst = true →
    let t : State :=
      { s with phase := .idle, blkLeft := 0, idx := 0, toneUnits := 1, need := 1, seenMark := false,
               faultCause := 0b00#2, faultInfo := 0b000#3, inputs := r }
    step s = .next t ∧
      (∃ u, exec .dot t = .next u ∧ u.phase = .tone ∧ u.blkLeft = s.cfg.U) ∧
      (∃ u, exec .dash t = .next u ∧ u.phase = .tone ∧ u.blkLeft = 3 * s.cfg.U)

/-- R37 (the spec's decision D17). The state after reset, in any configuration, with the outputs R37 gives it. The reset value of
`tone_units` cannot be observed: a mark accepted in `IDLE` does not depend on it. -/
def Obligations.ResetStateHoldsTheStatedValues : Prop :=
  (∀ c : Config,
    (State.resetIn c).cfg = c ∧ (State.resetIn c).phase = .idle ∧ (State.resetIn c).blkLeft = 0 ∧
    (State.resetIn c).idx = 0 ∧ (State.resetIn c).toneUnits = 1 ∧ (State.resetIn c).need = 1 ∧
    (State.resetIn c).seenMark = false ∧ (State.resetIn c).faultCause = 0b00#2 ∧
    (State.resetIn c).faultInfo = 0b000#3 ∧
    ∃ o, (State.resetIn c).outputs = .ok o ∧ o.symReady = true ∧ o.snkValid = false ∧ o.busy = false ∧
      o.fault = false) ∧
  (∀ (s : State) (u : Nat), s.phase = .idle →
    exec .dot { s with toneUnits := u } = exec .dot s ∧ exec .dash { s with toneUnits := u } = exec .dash s)

/-- The state right after reset is legal and faithful in every well-formed configuration, and so is `State.reset`
(whose configuration, CFG-A, is the model's choice: notes/assumptions/1.md). -/
def Obligations.ResetStatesAreLegalAndFaithful : Prop :=
  (∀ c : Config, c.WellFormed → (State.resetIn c).Legal ∧ (State.resetIn c).Faithful) ∧
    State.reset.Legal ∧ State.reset.Faithful

/-! ### Encoding and the step -/

/-- R71 (the spec's decision D3). The opcode map: the command each of the eight words decodes to. -/
def Obligations.OpcodeWordsDecodeByTheMap : Prop :=
  decode 0b000#3 = .dot ∧ decode 0b001#3 = .dash ∧ decode 0b010#3 = .lsep ∧ decode 0b011#3 = .wgap ∧
    decode 0b100#3 = .eol ∧ decode 0b101#3 = .reserved5 ∧ decode 0b110#3 = .reserved6 ∧ decode 0b111#3 = .reserved7

/-- From R70 and R74: decoding is total and each word is exactly one command, so decoding and encoding are inverse to
each other in both directions; a number that needs more than three bits is no symbol word. -/
def Obligations.DecodeAndEncodeAreInverse : Prop :=
  (∀ i : Instr, decode (encode i) = i) ∧ (∀ w : SymCode, encode (decode w) = w) ∧
    (∀ n w : Nat, w < 8 → decodeTableWord n w = some (decode (BitVec.ofNat 3 w))) ∧
    (∀ n w : Nat, 8 ≤ w → decodeTableWord n w = none)

/-- From R33, R36 and R74: when the block is idle and the host offers a symbol, the step takes the symbol from the channel,
records it, and runs the decoded command. The sink's signals do not matter. -/
def Obligations.StepRunsTheDecodedSymbol : Prop :=
  ∀ (s : State) (i : Inputs) (r : List Inputs), s.Legal → s.phase = .idle → s.inputs = i :: r → i.rst = false →
    i.symValid = true →
    step s = exec (decode i.symCode) { s with inputs := r, accepted := s.accepted ++ [i.symCode] }

/-- The model's `withFetchWord` (notes/assumptions/12.md): the very next step accepts and runs the word's command, from
every state whose `need` and `tone_units` are in range. -/
def Obligations.OfferedTableWordRunsNext : Prop :=
  ∀ (s : State) (n w : Nat) (i : Instr), s.cfg.WellFormed → (s.need = 1 ∨ s.need = 3 ∨ s.need = 7) →
    (s.toneUnits = 1 ∨ s.toneUnits = 3) → decodeTableWord n w = some i →
    step (s.withFetchWord n w) =
      exec i { s with phase := .idle, blkLeft := 0, idx := 0, faultCause := 0b00#2, faultInfo := 0b000#3,
                      accepted := s.accepted ++ [encode i] }

/-! ### What each command does when it is accepted -/

/-- The pseudocode of `MARK(d)` (R100; the spec's decisions D5 and D7) for `DOT` (d = 1) and `DASH` (d = 3), in every
idle state: with a mark in the line and a requirement above one unit the top-up comes first, otherwise the tone. -/
def Obligations.MarksSetUpTopUpOrTone : Prop :=
  ∀ s : State, s.phase = .idle →
    (exec .dot s =
      .next { s with toneUnits := 1, seenMark := true, need := 1, idx := 0,
                     phase := if s.seenMark = true ∧ 1 < s.need then .pre else .tone,
                     blkLeft := if s.seenMark = true ∧ 1 < s.need then (s.need - 1) * s.cfg.U else 1 * s.cfg.U }) ∧
    (exec .dash s =
      .next { s with toneUnits := 3, seenMark := true, need := 1, idx := 0,
                     phase := if s.seenMark = true ∧ 1 < s.need then .pre else .tone,
                     blkLeft := if s.seenMark = true ∧ 1 < s.need then (s.need - 1) * s.cfg.U else 3 * s.cfg.U })

/-- R120 (the spec's decisions D5 and D6). `LSEP` raises `need` to at least 3 and changes nothing else. Several in a row
act as one; after `WGAP` (need 7) it changes nothing; before the first mark and before `EOL` it has no effect on what
they do. -/
def Obligations.LsepRaisesNeedToThree : Prop :=
  decode 0b010#3 = .lsep ∧
  ∀ s : State, s.phase = .idle →
    let t : State := { s with need := max s.need 3 }
    exec .lsep s = .next t ∧ exec .lsep t = .next t ∧ (s.need = 7 → t = s) ∧
      (s.seenMark = false → exec .dot t = exec .dot s ∧ exec .dash t = exec .dash s) ∧
      exec .eol t = exec .eol s

/-- R121 (the spec's decisions D5, D6 and D7). `WGAP` raises `need` to at least 7 and changes nothing else. Several in a
row give one word gap; before the first mark and before `EOL` it has no effect on what they do. -/
def Obligations.WgapRaisesNeedToSeven : Prop :=
  decode 0b011#3 = .wgap ∧
  ∀ s : State, s.phase = .idle →
    let t : State := { s with need := max s.need 7 }
    exec .wgap s = .next t ∧ exec .wgap t = .next t ∧ (s.need ≤ 7 → t.need = 7) ∧
      (s.seenMark = false → exec .dot t = exec .dot s ∧ exec .dash t = exec .dash s) ∧
      exec .eol t = exec .eol s

/-- R122 (the spec's decision D4). `EOL` sets `need` to 1 and clears `seen_mark`, changes nothing else, does nothing on
an empty line, and is accepted only when no beat is owed. -/
def Obligations.EolStartsAFreshLine : Prop :=
  decode 0b100#3 = .eol ∧
  (∀ s : State, s.phase = .idle →
    let t : State := { s with need := 1, seenMark := false }
    exec .eol s = .next t ∧ exec .eol t = .next t ∧ s.owed = []) ∧
  (∀ c : Config, exec .eol (State.resetIn c) = .next (State.resetIn c)) ∧
  (∀ s : State, s.phase ≠ .idle → s.symReady = false)

/-- R123 (the spec's decision D13). Accepting a reserved code takes the `ILLEGAL_SYMBOL` fault with the code recorded,
in every idle state, and the symbol is consumed; both channels are then closed, and whatever the ports carry afterwards,
no symbol is accepted and no beat emitted until reset. (That the other fields keep their values is R201's; no output
exposes them: 93 I11.) -/
def Obligations.ReservedCodesTakeTheIllegalSymbolFault : Prop :=
  decode 0b101#3 = .reserved5 ∧ decode 0b110#3 = .reserved6 ∧ decode 0b111#3 = .reserved7 ∧
  (∀ s : State, s.phase = .idle →
    exec .reserved5 s = .next { s with phase := .fault, faultCause := 0b01#2, faultInfo := 0b101#3 } ∧
    exec .reserved6 s = .next { s with phase := .fault, faultCause := 0b01#2, faultInfo := 0b110#3 } ∧
    exec .reserved7 s = .next { s with phase := .fault, faultCause := 0b01#2, faultInfo := 0b111#3 }) ∧
  (∀ (s t : State) (i : Instr), s.phase = .idle → i = .reserved5 ∨ i = .reserved6 ∨ i = .reserved7 →
    exec i s = .next t → t.symReady = false ∧ t.snkValid = false) ∧
  (∀ (s : State) (i : Inputs) (l r : List Inputs), s.Legal → s.phase = .idle → s.inputs = i :: (l ++ r) →
    i.rst = false → i.symValid = true → i.symCode = 0b101#3 ∨ i.symCode = 0b110#3 ∨ i.symCode = 0b111#3 →
    (∀ j ∈ l, j.rst = false) →
    runSteps (1 + l.length) s =
      .next { s with phase := .fault, faultCause := 0b01#2, faultInfo := i.symCode, inputs := r,
                     accepted := s.accepted ++ [i.symCode] })

/-- From R33, R36 and R60: while the block is not in `IDLE`, a symbol is not accepted and has no effect, whichever it is.
That `exec` then answers the state itself is the model's form (notes/assumptions/6.md). -/
def Obligations.NoSymbolIsAcceptedOutsideIdle : Prop :=
  ∀ (i : Instr) (s : State), s.phase ≠ .idle → s.symReady = false ∧ exec i s = .next s

/-! ### Frames -/

/-- From R101, R102 and R51: a mark writes `tone_units`, `seen_mark`, `need`, `idx`, `phase` and `blk_left` and nothing
else: not the fault registers, the streams or the coming inputs, and no entry and no byte of the LUT. -/
def Obligations.MarksLeaveFaultsStreamsAndRomAlone : Prop :=
  ∀ (i : Instr) (s t : State), i = .dot ∨ i = .dash → exec i s = .next t →
    t.faultCause = s.faultCause ∧ t.faultInfo = s.faultInfo ∧ t.inputs = s.inputs ∧ t.accepted = s.accepted ∧
      t.taken = s.taken ∧ t.cfg = s.cfg ∧ (∀ k, memRead t.cfg k = memRead s.cfg k) ∧
      (∀ a, lutByte t.cfg a = lutByte s.cfg a)

/-- From R120 to R122 and R51: a separator changes at most `need`, and `EOL` at most `need` and `seen_mark`; `phase` stays
and no beat is emitted. -/
def Obligations.SeparatorsAndEolChangeOnlyTheGapState : Prop :=
  ∀ (i : Instr) (s t : State), i = .lsep ∨ i = .wgap ∨ i = .eol → exec i s = .next t →
    (i ≠ .eol → t.seenMark = s.seenMark) ∧ t.phase = s.phase ∧ t.blkLeft = s.blkLeft ∧ t.idx = s.idx ∧
      t.toneUnits = s.toneUnits ∧ t.faultCause = s.faultCause ∧ t.faultInfo = s.faultInfo ∧ t.inputs = s.inputs ∧
      t.accepted = s.accepted ∧ t.taken = s.taken ∧ t.cfg = s.cfg ∧ (∀ k, memRead t.cfg k = memRead s.cfg k) ∧
      (∀ a, lutByte t.cfg a = lutByte s.cfg a)

/-- From R123, R201 and R51: a reserved code changes at most `phase`, `fault_cause` and `fault_info`. -/
def Obligations.ReservedCodesChangeOnlyPhaseAndFaultRegisters : Prop :=
  ∀ (i : Instr) (s t : State), i = .reserved5 ∨ i = .reserved6 ∨ i = .reserved7 → exec i s = .next t →
    t.blkLeft = s.blkLeft ∧ t.idx = s.idx ∧ t.toneUnits = s.toneUnits ∧ t.need = s.need ∧ t.seenMark = s.seenMark ∧
      t.inputs = s.inputs ∧ t.accepted = s.accepted ∧ t.taken = s.taken ∧ t.cfg = s.cfg ∧
      (∀ k, memRead t.cfg k = memRead s.cfg k) ∧ (∀ a, lutByte t.cfg a = lutByte s.cfg a)

/-! ### The beat step -/

/-- R142 (the spec's decisions D5 and D9). What a taken beat does, in every state that owes one: the next sample of the
block, else the next block of the phase, else the next phase. No other field changes; the sample joins the stream. -/
def Obligations.TakenBeatAdvancesTheState : Prop :=
  ∀ (s : State) (v : Sample) (i : Inputs) (r : List Inputs), s.Legal → s.phase.isBusy = true → s.inputs = i :: r →
    i.Takes → s.snkData = .ok v →
    let t : State := { s with inputs := r, taken := s.taken ++ [v] }
    (s.idx + 1 < s.cfg.nC → step s = .next { t with idx := s.idx + 1 }) ∧
    (¬ s.idx + 1 < s.cfg.nC → 1 < s.blkLeft → step s = .next { t with idx := 0, blkLeft := s.blkLeft - 1 }) ∧
    (¬ s.idx + 1 < s.cfg.nC → ¬ 1 < s.blkLeft →
      (s.phase = .pre → step s = .next { t with idx := 0, phase := .tone, blkLeft := s.toneUnits * s.cfg.U }) ∧
      (s.phase = .tone → step s = .next { t with idx := 0, phase := .post, blkLeft := 1 * s.cfg.U }) ∧
      (s.phase = .post → step s = .next { t with idx := 0, phase := .idle, blkLeft := 0 }))

/-- R141 (the spec's decision D9). The offered sample: the LUT entry at `idx` in `TONE`, always present in a legal
state, and `0x0000` in `PRE` and `POST`. -/
def Obligations.OfferedSampleIsTheLutEntryOrSilence : Prop :=
  ∀ s : State, s.Legal →
    (s.phase = .tone → ∃ x : Int, s.cfg.toneLut[s.idx]? = some x ∧ s.snkData = .ok (BitVec.ofInt 16 x)) ∧
    (s.phase = .pre → s.snkData = .ok 0x0000#16) ∧ (s.phase = .post → s.snkData = .ok 0x0000#16)

/-- From R36 (marked derived there): the output ports as functions of the state, in every legal state.
`snk_data` is stated only while a beat is offered (93 I12). -/
def Obligations.OutputsFollowThePhase : Prop :=
  ∀ s : State, s.Legal → ∃ o : Outputs, s.outputs = .ok o ∧
    (o.symReady = true ↔ s.phase = .idle) ∧
    (o.snkValid = true ↔ s.phase = .pre ∨ s.phase = .tone ∨ s.phase = .post) ∧
    o.busy = o.snkValid ∧ (o.fault = true ↔ s.phase = .fault) ∧
    o.faultCause = s.faultCause ∧ o.faultInfo = s.faultInfo ∧
    (s.phase = .pre ∨ s.phase = .post → o.snkData = 0x0000#16) ∧
    (s.phase = .tone → ∃ x, memRead s.cfg s.idx = .ok x ∧ o.snkData = bits16 x)

/-- R149 (the spec's decision D8). However long the sink neither takes nor fails the offered beat, every state field and
with it every output stays; only the input values are used up. Symbols offered meanwhile are not accepted. -/
def Obligations.BackPressureKeepsTheOfferedBeat : Prop :=
  ∀ (s : State) (stall rest : List Inputs), s.Legal → s.phase.isBusy = true → s.inputs = stall ++ rest →
    (∀ i ∈ stall, i.rst = false ∧ i.snkErr = false ∧ i.snkReady = false) →
    runSteps stall.length s = .next { s with inputs := rest } ∧
      State.outputs { s with inputs := rest } = s.outputs

/-- R203 (the spec's decision D14). A failed answer to an offered beat, whatever `snk_ready` is, takes `SINK_ERROR` with
`fault_info` 0; the beat is not delivered, and whatever the ports carry afterwards, short of reset, neither it nor a later
one is offered or delivered. -/
def Obligations.FailedBeatTakesSinkError : Prop :=
  ∀ (s : State) (i : Inputs) (l r : List Inputs), s.Legal → s.phase.isBusy = true → s.inputs = i :: (l ++ r) →
    i.rst = false → i.snkErr = true → (∀ j ∈ l, j.rst = false) →
    step s = .next { s with phase := .fault, faultCause := 0b10#2, faultInfo := 0b000#3, inputs := l ++ r } ∧
    ∃ t, runSteps (1 + l.length) s = .next t ∧ t.snkValid = false ∧
      t = { s with phase := .fault, faultCause := 0b10#2, faultInfo := 0b000#3, inputs := r }

/-- From R34 and R212: in `IDLE` the block waits for a symbol as long as it takes and loses no state; the sink's
signals are ignored. -/
def Obligations.IdleWaitsAndIgnoresTheSink : Prop :=
  ∀ (s : State) (wait rest : List Inputs), s.Legal → s.phase = .idle → s.inputs = wait ++ rest →
    (∀ i ∈ wait, i.rst = false ∧ i.symValid = false) →
    runSteps wait.length s = .next { s with inputs := rest }

/-- R206 (the spec's decisions D17 and D23). In `FAULT` no event happens: whatever the ports carry, the first fault stays recorded and no
symbol is accepted and no beat emitted, until a reset, which does leave it; and it is never an end of a run. -/
def Obligations.FaultIsLeftByResetAlone : Prop :=
  ∀ (s : State) (l rest : List Inputs), s.Legal → s.phase = .fault → s.inputs = l ++ rest →
    (∀ i ∈ l, i.rst = false) →
    ¬ s.IsEnd ∧ runSteps l.length s = .next { s with inputs := rest } ∧
    (∀ i r, rest = i :: r → i.rst = true →
      ∃ t, runSteps (l.length + 1) s = .next t ∧ t.phase = .idle ∧ t.faultCause = 0b00#2 ∧ t.inputs = r)

/-! ### Whole marks -/

/-- R101 (rests on R100 and R142). The dot from its word on: what acceptance writes, the whole stream of beats it makes
the sink take, the state it ends in, and the `SINK_ERROR` that a failure of any beat of it takes. -/
def Obligations.DotRendersOneUnitOfTone : Prop :=
  decode 0b000#3 = .dot ∧
  ∀ (s : State) (i : Inputs) (takes : List Inputs) (rest : List Inputs), s.Legal → s.phase = .idle →
    s.inputs = i :: (takes ++ rest) → i.rst = false → i.symValid = true → i.symCode = 0b000#3 →
    (∀ j ∈ takes, j.Takes) →
    let pre := if s.seenMark then s.need - 1 else 0
    let n := (pre + 2) * s.cfg.U * s.cfg.nC
    (exec .dot s =
      .next { s with toneUnits := 1, seenMark := true, need := 1, idx := 0,
                     phase := if 0 < pre then .pre else .tone,
                     blkLeft := if 0 < pre then pre * s.cfg.U else s.cfg.U }) ∧
    (markStream s.cfg pre 1).length = n ∧
    (takes.length = n →
      runSteps (1 + n) s =
        .next { s with toneUnits := 1, seenMark := true, need := 1, inputs := rest, accepted := s.accepted ++ [0b000#3],
                       taken := s.taken ++ markStream s.cfg pre 1 }) ∧
    (takes.length < n → ∀ (j : Inputs) (r : List Inputs), rest = j :: r → j.rst = false → j.snkErr = true →
      ∃ t, runSteps (1 + takes.length + 1) s = .next t ∧ t.phase = .fault ∧ t.faultCause = 0b10#2 ∧
        t.faultInfo = 0b000#3 ∧ t.taken = s.taken ++ (markStream s.cfg pre 1).take takes.length)

/-- R102 (rests on R100 and R142). The dash from its word on, as for the dot, with three units of tone and four units
beside the top-up. -/
def Obligations.DashRendersThreeUnitsOfTone : Prop :=
  decode 0b001#3 = .dash ∧
  ∀ (s : State) (i : Inputs) (takes : List Inputs) (rest : List Inputs), s.Legal → s.phase = .idle →
    s.inputs = i :: (takes ++ rest) → i.rst = false → i.symValid = true → i.symCode = 0b001#3 →
    (∀ j ∈ takes, j.Takes) →
    let pre := if s.seenMark then s.need - 1 else 0
    let n := (pre + 4) * s.cfg.U * s.cfg.nC
    (exec .dash s =
      .next { s with toneUnits := 3, seenMark := true, need := 1, idx := 0,
                     phase := if 0 < pre then .pre else .tone,
                     blkLeft := if 0 < pre then pre * s.cfg.U else 3 * s.cfg.U }) ∧
    (markStream s.cfg pre 3).length = n ∧
    (takes.length = n →
      runSteps (1 + n) s =
        .next { s with toneUnits := 3, seenMark := true, need := 1, inputs := rest, accepted := s.accepted ++ [0b001#3],
                       taken := s.taken ++ markStream s.cfg pre 3 }) ∧
    (takes.length < n → ∀ (j : Inputs) (r : List Inputs), rest = j :: r → j.rst = false → j.snkErr = true →
      ∃ t, runSteps (1 + takes.length + 1) s = .next t ∧ t.phase = .fault ∧ t.faultCause = 0b10#2 ∧
        t.faultInfo = 0b000#3 ∧ t.taken = s.taken ++ (markStream s.cfg pre 3).take takes.length)

/-- From R103, R124, R125 and R234 (derived there): right after a mark (`need = 1`), any separators and then a mark
put exactly the gap they ask for before its tone: 1, 3 or 7 units, the first of which is the mark's before. -/
def Obligations.SeparatorsDecideTheGapBetweenMarks : Prop :=
  ∀ (s : State) (seps : List Instr) (m : Instr) (takes rest : List Inputs), s.Legal → s.phase = .idle →
    s.seenMark = true → s.need = 1 → (∀ x ∈ seps, x.isSeparator = true) → m.isMark = true →
    s.inputs = offers (seps ++ [m]) ++ (takes ++ rest) → (∀ j ∈ takes, j.Takes) →
    takes.length = (gapUnits seps + markUnits m) * s.cfg.U * s.cfg.nC →
    ∃ t, runSteps (seps.length + 1 + takes.length) s = .next t ∧ t.phase = .idle ∧ t.inputs = rest ∧
      t.taken = s.taken ++ (blocks s.cfg .silence ((gapUnits seps - 1) * s.cfg.U) ++
        blocks s.cfg .tone (markUnits m * s.cfg.U) ++ blocks s.cfg .silence s.cfg.U)

/-- From R126, R127 and R128 (R127 and R128 are the spec's decisions D7 and D22): whatever separators stand before the
end of a line and before the first mark of the next, that mark's tone comes at once, so that the one unit after the last
mark is all the silence between the lines. -/
def Obligations.NothingIsAddedBetweenLines : Prop :=
  ∀ (s : State) (before after : List Instr) (m : Instr) (takes rest : List Inputs), s.Legal → s.phase = .idle →
    (∀ x ∈ before, x.isSeparator = true) → (∀ x ∈ after, x.isSeparator = true) → m.isMark = true →
    s.inputs = offers (before ++ [.eol] ++ after ++ [m]) ++ (takes ++ rest) → (∀ j ∈ takes, j.Takes) →
    takes.length = (markUnits m + 1) * s.cfg.U * s.cfg.nC →
    ∃ t, runSteps (before.length + 1 + after.length + 1 + takes.length) s = .next t ∧ t.phase = .idle ∧
      t.inputs = rest ∧
      t.taken = s.taken ++ (blocks s.cfg .tone (markUnits m * s.cfg.U) ++ blocks s.cfg .silence s.cfg.U)

/-- R127 (the spec's decision D7). Before the first mark of a line no silence is emitted, whatever separators precede
it, and a line with no mark emits no beat at all. -/
def Obligations.NoSilenceBeforeTheFirstMark : Prop :=
  (∀ (s : State) (seps : List Instr) (m : Instr) (rest : List Inputs), s.Legal → s.phase = .idle →
    s.seenMark = false → (∀ x ∈ seps, x.isSeparator = true) → m.isMark = true →
    s.inputs = offers (seps ++ [m]) ++ rest →
    ∃ t, runSteps (seps.length + 1) s = .next t ∧ t.phase = .tone ∧ t.idx = 0 ∧ t.taken = s.taken) ∧
  (∀ (s : State) (line : List Instr) (rest : List Inputs), s.Legal → s.phase = .idle →
    (∀ x ∈ line, x.isSeparator = true ∨ x = .eol) → s.inputs = offers line ++ rest →
    ∃ t, runSteps line.length s = .next t ∧ t.phase = .idle ∧ t.taken = s.taken ∧ t.inputs = rest)

/-- From R140, R149 and R204: from a state that owes output, any mixture of takes and stalls delivers exactly the next
samples it owes, as many as were taken: stalls neither drop, repeat nor change a sample. -/
def Obligations.StallsDoNotChangeTheStream : Prop :=
  ∀ (s : State) (l rest : List Inputs), s.Legal → s.inputs = l ++ rest → (∀ i ∈ l, i.Calm) →
    l.countP (fun i => i.snkReady) ≤ s.owed.length →
    ∃ t, runSteps l.length s = .next t ∧
      t.taken = s.taken ++ s.owed.take (l.countP fun i => i.snkReady)

/-- From R33, R60 and R235: a symbol the host holds on offer while a mark is emitted is accepted exactly once, at the
first step after the last owed beat is taken. -/
def Obligations.HeldSymbolIsAcceptedOnceAfterTheLastBeat : Prop :=
  ∀ (s : State) (c : SymCode) (takes : List Inputs) (j : Inputs) (rest : List Inputs), s.Legal →
    s.phase.isBusy = true → s.inputs = takes ++ j :: rest → (∀ i ∈ takes, i.Takes ∧ i.symValid = true ∧ i.symCode = c) →
    takes.length = s.owed.length → j.rst = false → j.symValid = true → j.symCode = c →
    ∃ t u, runSteps takes.length s = .next t ∧ t.phase = .idle ∧ t.accepted = s.accepted ∧
      runSteps (takes.length + 1) s = .next u ∧ u.accepted = s.accepted ++ [c] ∧ u.taken = s.taken ++ s.owed

/-- From R204 (derived there): if the sink takes some of the owed beats and fails the next one, exactly the taken ones
were delivered, in order, and the fault is recorded. -/
def Obligations.SinkFailureTruncatesTheStream : Prop :=
  ∀ (s : State) (takes : List Inputs) (j : Inputs) (rest : List Inputs), s.Legal → s.inputs = takes ++ j :: rest →
    (∀ i ∈ takes, i.Takes) → takes.length < s.owed.length → j.rst = false → j.snkErr = true →
    ∃ t, runSteps (takes.length + 1) s = .next t ∧ t.phase = .fault ∧ t.faultCause = 0b10#2 ∧
      t.taken = s.taken ++ s.owed.take takes.length ∧ t.accepted = s.accepted

/-! ### Rules of the whole machine -/

/-- From R38, R29, R30 and R151: every step from a legal state, whatever the ports carry, gives a legal state. -/
def Obligations.EveryStepKeepsTheLegalStates : Prop :=
  ∀ s t : State, s.Legal → step s = .next t → t.Legal

/-- From R200, R201 and R204: a legal state never stops the model: whatever the ports carry, there is a next state. The
block's own faults are next states. -/
def Obligations.LegalStatesAlwaysStep : Prop := ∀ s : State, s.Legal → ∃ t, step s = .next t

/-- From R60, R103, R124 to R128, R143 and R204: the sample stream is the rendering of the accepted symbols, with the
gaps the guarantees give; every step without a reset keeps what was taken together with what is owed equal to it. -/
def Obligations.StreamRendersTheAcceptedSymbols : Prop :=
  ∀ s t : State, s.Legal → s.Faithful → s.input.rst = false → step s = .next t → t.Faithful

/-- From R9 and R61: in `IDLE` every sample of the accepted symbols has been taken. So it is at the end of a run, and
when an `EOL` is accepted every sample of the line it ends has reached the sink, none by the acceptance itself. -/
def Obligations.AcceptedEolCompletesTheLine : Prop :=
  (∀ s : State, s.Faithful → s.IsEnd → s.taken = renderStream s.cfg (s.accepted.map decode)) ∧
  (∀ s t : State, s.Legal → s.Faithful → s.phase = .idle → s.input.rst = false → s.input.symValid = true →
    decode s.input.symCode = .eol → step s = .next t →
    s.taken = renderStream s.cfg (s.accepted.map decode) ∧ t.taken = s.taken ∧
      t.taken = renderStream t.cfg (t.accepted.map decode))

/-- From R8, R33, R34, R57, R58, R60 and R205: a step is at most one event of the four, and each stream grows only by
its own: one accepted code, in `IDLE`, or one taken sample, the offered one, while output is owed. -/
def Obligations.EachStepIsAtMostOneEvent : Prop :=
  ∀ s t : State, step s = .next t →
    t.inputs = s.inputs.tail ∧
    ((s.input.rst = true ∧ t.phase = .idle ∧ t.accepted = s.accepted ∧ t.taken = s.taken) ∨
     (s.input.rst = false ∧ s.phase = .idle ∧ s.input.symValid = true ∧
        t.accepted = s.accepted ++ [s.input.symCode] ∧ t.taken = s.taken) ∨
     (s.input.rst = false ∧ s.phase.isBusy = true ∧ s.input.snkErr = false ∧ s.input.snkReady = true ∧
        t.accepted = s.accepted ∧ ∃ v, s.snkData = .ok v ∧ t.taken = s.taken ++ [v]) ∨
     (s.input.rst = false ∧ s.phase.isBusy = true ∧ s.input.snkErr = true ∧ t.phase = .fault ∧
        t.accepted = s.accepted ∧ t.taken = s.taken) ∨
     (s.input.rst = false ∧ t = { s with inputs := s.inputs.tail }))

/-- R20 and R51: no run of any length changes the configuration; every read of the LUT, by entry or by byte, gives the
same value for the life of the block, and the silence block stays. -/
def Obligations.NoRunChangesConfigurationOrRom : Prop :=
  ∀ (k : Nat) (s t : State), runSteps k s = .next t →
    t.cfg = s.cfg ∧ (∀ n, memRead t.cfg n = memRead s.cfg n) ∧ (∀ a, lutByte t.cfg a = lutByte s.cfg a) ∧
      silenceBlock t.cfg = silenceBlock s.cfg

/-- R29 (the spec's decision D15): from a legal state only fault entry and reset write `fault_cause`, and never with the
reserved code. -/
def Obligations.FaultCauseIsWrittenByFaultEntryAndResetOnly : Prop :=
  ∀ s t : State, s.Legal → step s = .next t → t.faultCause ≠ s.faultCause →
    (s.input.rst = true ∧ t.faultCause = 0b00#2) ∨
    (s.phase ≠ .fault ∧ t.phase = .fault ∧
      ((t.faultCause = 0b01#2 ∧ s.phase = .idle ∧ s.input.symValid = true ∧
          (decode s.input.symCode).isLegal = false ∧ t.faultInfo = s.input.symCode) ∨
       (t.faultCause = 0b10#2 ∧ s.phase.isBusy = true ∧ s.input.snkErr = true ∧ t.faultInfo = 0b000#3)))

/-- From R56 (derived there): output comes in whole blocks. Without a reset or a fault, `idx` is always the number of
samples of the block that are out. -/
def Obligations.OutputComesInWholeBlocks : Prop :=
  ∀ s t : State, s.Legal → s.input.rst = false → step s = .next t → t.phase ≠ .fault →
    s.taken.length % s.cfg.nC = s.idx → t.taken.length % t.cfg.nC = t.idx

/-- From R39, R201 and 93 I11: the fields no output exposes in `FAULT` cannot be observed. Two faulted legal states that
differ only in them give, for every number of steps and also across resets, the same observation and the same outputs. -/
def Obligations.HiddenFieldsOfAFaultCannotBeObserved : Prop :=
  ∀ (k : Nat) (s t : State), s.Legal → t.Legal → s.phase = .fault → s.SameOutside t →
    ∃ s' t', runSteps k s = .next s' ∧ runSteps k t = .next t' ∧ s'.observation = t'.observation ∧
      s'.outputs = t'.outputs

/-! ### Stops of the model -/

/-- R7 (the spec's decision D11). An ill-formed configuration is refused and given no step, in every state and whatever
the ports carry; a well-formed one is never refused. -/
def Obligations.IllFormedConfigurationsGetNoStep : Prop :=
  (∀ s : State, s.cfg.U = 0 ∨ s.cfg.nC = 0 ∨ s.cfg.A < 0 ∨ 32767 < s.cfg.A ∨ s.cfg.toneLut.length ≠ s.cfg.nC ∨
      (∃ v ∈ s.cfg.toneLut, v < -32768 ∨ 32767 < v) → step s = .refused .illFormedConfig) ∧
  (∀ s : State, 1 ≤ s.cfg.U → 1 ≤ s.cfg.nC → 0 ≤ s.cfg.A → s.cfg.A ≤ 32767 → s.cfg.toneLut.length = s.cfg.nC →
      (∀ v ∈ s.cfg.toneLut, -32768 ≤ v ∧ v ≤ 32767) → ∀ r, step s ≠ .refused r)

/-- From R29, R38, R52 and 93 I6 and I10: the unreachable states fault, each by its own name, unless reset is applied. -/
def Obligations.UnreachableStatesFaultByName : Prop :=
  ∀ s : State, s.cfg.WellFormed → s.input.rst = false →
    (s.phase = .tone → s.cfg.nC ≤ s.idx → step s = .fault .lutIndexOutOfRange) ∧
    ((s.phase = .tone → s.idx < s.cfg.nC) → s.faultCause = 0b11#2 → step s = .fault .reservedFaultCause) ∧
    ((s.phase = .tone → s.idx < s.cfg.nC) → s.faultCause ≠ 0b11#2 → ¬ s.Consistent →
      step s = .fault .outsideInvariants)

/-! ### Memory, durations and widths -/

/-- R52 (the spec's decisions D8 and D10). Reading the LUT: every index below `N_C` gives its entry, an `int16`, and
nothing else does; the byte view is little-endian. The datapath of a legal state reads at `idx`, within the table. -/
def Obligations.LutReadsGiveEntriesAndLittleEndianBytes : Prop :=
  ∀ c : Config, c.WellFormed →
    (∀ k, k < c.nC → ∃ v, c.toneLut[k]? = some v ∧ -32768 ≤ v ∧ v ≤ 32767 ∧ memRead c k = .ok v ∧
      (bits16 v).toInt = v ∧
      lutByte c (2 * k) = .ok ((bits16 v).extractLsb' 0 8) ∧ lutByte c (2 * k + 1) = .ok ((bits16 v).extractLsb' 8 8)) ∧
    (∀ k, c.nC ≤ k → memRead c k = .error .lutIndexOutOfRange) ∧
    (∀ a, 2 * c.nC ≤ a → lutByte c a = .error .lutIndexOutOfRange) ∧
    (∀ s : State, s.Legal → s.cfg = c → s.phase = .tone →
      s.idx < c.nC ∧ ∃ v, memRead c s.idx = .ok v ∧ s.snkData = .ok (bits16 v))

/-- R50 and R52: the ROM written out as memory cells is in canonical form, has `2*N_C` bytes, and lists exactly what its byte view
reads. -/
def Obligations.RomCellsAreTheByteView : Prop :=
  ∀ c : Config, c.WellFormed →
    Memory.wf (lutCells c) ∧ (lutCells c).length = 2 * c.nC ∧
      ∀ a b, (a, b) ∈ lutCells c ↔ lutByte c a = .ok b

/-- R53 (the spec's decision D9). Every entry of the silence block is `0x0000`, and the block is as long as the tone block. -/
def Obligations.SilenceBlockIsZeros : Prop :=
  ∀ c : Config, c.WellFormed →
    (∀ k, k < c.nC → (silenceBlock c)[k]? = some 0x0000#16) ∧ (silenceBlock c).length = (toneBlock c).length ∧
      (silenceBlock c).length = c.nC

/-- From R54 and R55: sample `k` of a stream is bytes `2k` (low) and `2k+1` (high) of its byte stream, which is twice as
long; the two bytes are the whole sample. -/
def Obligations.ByteStreamIsLittleEndian : Prop :=
  ∀ (l : List Sample), (bytesOf l).length = 2 * l.length ∧
    ∀ (k : Nat) (v : Sample), l[k]? = some v →
      (bytesOf l)[2 * k]? = some (v.extractLsb' 0 8) ∧ (bytesOf l)[2 * k + 1]? = some (v.extractLsb' 8 8) ∧
      v = highByte v ++ lowByte v

/-- From R21 and R22: the unit multiples, the block counts derived from the units, and the largest top-up, which is reached. -/
def Obligations.BlockCountsAreMultiplesOfTheUnit : Prop :=
  (dotUnits = 1 ∧ dashUnits = 3 ∧ igapUnits = 1 ∧ lgapUnits = 3 ∧ wgapUnits = 7) ∧
  (∀ c : Config, dotBlocks c = c.U ∧ dashBlocks c = 3 * c.U ∧ igapBlocks c = c.U ∧ lgapBlocks c = 3 * c.U ∧
    wgapBlocks c = 7 * c.U) ∧
  (∀ s : State, s.Legal → unitBlocks s.cfg (topUpUnits s) ≤ 6 * s.cfg.U) ∧
  (∀ s : State, s.seenMark = true → s.need = 7 → unitBlocks s.cfg (topUpUnits s) = 6 * s.cfg.U)

/-- From R144 and R145: the samples, bytes and seconds of a duration, and the lengths of the runs of samples. -/
def Obligations.DurationsConvertToBlocksSamplesBytes : Prop :=
  ∀ (c : Config) (n : Nat), c.WellFormed →
    (blocks c .tone (unitBlocks c n)).length = n * c.U * c.nC ∧
    (blocks c .silence (unitBlocks c n)).length = n * c.U * c.nC ∧
    (bytesOf (blocks c .tone (unitBlocks c n))).length = 2 * n * c.U * c.nC ∧
    unitBytes c n = 2 * n * c.U * c.nC ∧ unitSeconds c n = (n * c.U * c.nC : ℚ) / 44100

/-- From R151: the counters of every legal state fit the bits R151 gives them. -/
def Obligations.CountersFitTheirWidths : Prop :=
  ∀ s : State, s.Legal →
    s.blkLeft < 2 ^ blkLeftBits s.cfg ∧ s.idx < 2 ^ idxBits s.cfg ∧ s.need < 2 ^ 3 ∧ s.toneUnits < 2 ^ 2

/-! ### The reference generator -/

/-- From R147: a table the reference generator gives has every entry in -32767 .. 32767. -/
def Obligations.ReferenceTableStaysInRange : Prop :=
  ∀ c : Config, c.WellFormed → IsReferenceTable c → ∀ v ∈ c.toneLut, -32767 ≤ v ∧ v ≤ 32767

/-- From R148: the rounding picks exactly one integer, the computed one on the rationals, with the rule's examples; and
where the exact sine is 0, at entry 0 and at the middle of an even table, a reference table's entry is 0. -/
def Obligations.RoundingIsHalfAwayFromZero : Prop :=
  (∀ (x : ℝ) (m n : Int), RoundsHalfAway x m → RoundsHalfAway x n → m = n) ∧
  (∀ q : ℚ, RoundsHalfAway (q : ℝ) (roundHalfAway q)) ∧
  roundHalfAway (5 / 2) = 3 ∧ roundHalfAway (-5 / 2) = -3 ∧ roundHalfAway (115852375 / 10000) = 11585 ∧
  (∀ c : Config, IsReferenceTable c → ∀ v, c.toneLut[0]? = some v → v = 0) ∧
  (∀ c : Config, IsReferenceTable c → ∀ h v, c.nC = 2 * h → 0 < h → c.toneLut[h]? = some v → v = 0)

/-- From 95_test_vectors.md Part 2 and Y6: the table of CFG-A is the reference generator's, and with `N_C` 1 or 2 a reference table
is silent. -/
def Obligations.ReferenceTablesOfTheVectors : Prop :=
  IsReferenceTable Config.cfgA ∧ IsReferenceTable Config.cfgB ∧
  (∀ c : Config, c.WellFormed → c.nC = 1 ∨ c.nC = 2 → IsReferenceTable c → ∀ v ∈ c.toneLut, v = 0)

/-! ### The host's encoder -/

/-- R161: the lookup is case-insensitive for letters, whatever the tables, and so is the encoding of a line. -/
def Obligations.LookupIsCaseInsensitive : Prop :=
  ∀ (t : CodeTable),
    (∀ c : Char, 97 ≤ c.toNat → c.toNat ≤ 122 → t.lookup c = t.lookup (Char.ofNat (c.toNat - 32))) ∧
    (∀ c : Char, c ≠ ' ' → ¬ (97 ≤ c.toNat ∧ c.toNat ≤ 122) →
      t.lookup c = (t.rows.lookup c).map fun code => code.map Mark.symbol) ∧
    (∀ line : List Char, t.encodeSymbols (line.map upperChar) = t.encodeSymbols line)

/-- R166 and R169: an unsupported character is dropped, with no symbol and no effect on the rest of the line. -/
def Obligations.UnsupportedCharactersAreDropped : Prop :=
  ∀ (t : CodeTable) (a b : List Char) (c : Char), t.lookup c = none →
    t.encodeSymbols (a ++ c :: b) = t.encodeSymbols (a ++ b) ∧ t.sendLine (a ++ c :: b) = t.sendLine (a ++ b)

/-- From R160 and R167 to R169: what the host sends for a line holds no reserved code and one `EOL`, at its end, so no line of text
makes the block fault: run from any legal idle state by a sink that never fails, the block is not in `FAULT`. -/
def Obligations.LinesOfTextNeverFault : Prop :=
  (∀ (t : CodeTable) (line : List Char),
    (∀ i ∈ t.sendLine line, i.isLegal = true) ∧ (∀ i ∈ t.encodeSymbols line, i ≠ .eol)) ∧
  (∀ (k : Nat) (s u : State), s.Legal → s.phase ≠ .fault →
    (∀ i ∈ s.inputs, i.snkErr = false ∧ (i.symValid = true → (decode i.symCode).isLegal = true)) →
    runSteps k s = .next u → u.phase ≠ .fault)

/-- R163 and R164, on the default table of R165 (from general knowledge, 93 G1): its codes of E, S and O are the
source's, and it has one non-empty entry for each of its characters. The space's code is the word gap in every table. -/
def Obligations.DefaultTableHasTheSourcesCodes : Prop :=
  (CodeTable.international []).WellFormed ∧ (∀ t : CodeTable, t.lookup ' ' = some [.wgap]) ∧
  ∀ punct, (CodeTable.international punct).lookup 'E' = some [.dot] ∧
    (CodeTable.international punct).lookup 'S' = some [.dot, .dot, .dot] ∧
    (CodeTable.international punct).lookup 'O' = some [.dash, .dash, .dash]

/-- From R75 (the spec's decision D25): a symbol program written in the compact form, or one line a command in the
mnemonic form, is read back as its codes. -/
def Obligations.WrittenProgramsReadBack : Prop :=
  ∀ l : List Instr,
    parseCompact (l.flatMap compactForm) = some (l.map encode) ∧ assemble (l.map mnemonicLine) = some (l.map encode)

/-- From R161 to R163: with a well-formed table a character is found exactly if it is the space or, in upper case, a letter,
a digit or a punctuation character of the table; every code but the space's is a non-empty sequence of dots and dashes;
and every row of the table is the one that its character finds. That a punctuation character is no lower-case letter is
presumed (notes/assumptions/17.md). -/
def Obligations.SupportedCharactersHaveExactlyOneCode : Prop :=
  ∀ t : CodeTable, t.WellFormed →
    (∀ c : Char, (∃ code, t.lookup c = some code) ↔
      c = ' ' ∨ (65 ≤ (upperChar c).toNat ∧ (upperChar c).toNat ≤ 90) ∨
        (48 ≤ (upperChar c).toNat ∧ (upperChar c).toNat ≤ 57) ∨ ∃ r ∈ t.punct, r.1 = upperChar c) ∧
    (∀ c code, c ≠ ' ' → t.lookup c = some code → code ≠ [] ∧ ∀ i ∈ code, i = .dot ∨ i = .dash) ∧
    (∀ r ∈ t.rows, t.lookup r.1 = some (r.2.map Mark.symbol))
end

