-- ==== Sys2Proof/Laws/State.lean ====
section
/-! SUPPORT. What each named update of the state leaves in each field: one lemma a field, so that no proof unfolds a
record update. -/

namespace Sys2Proof.Machine

/-! ### The input values of this step are past. -/

@[simp] theorem State.nextInput_cfg (s : State) : (s.nextInput).cfg = s.cfg := rfl
@[simp] theorem State.nextInput_phase (s : State) : (s.nextInput).phase = s.phase := rfl
@[simp] theorem State.nextInput_blkLeft (s : State) : (s.nextInput).blkLeft = s.blkLeft := rfl
@[simp] theorem State.nextInput_idx (s : State) : (s.nextInput).idx = s.idx := rfl
@[simp] theorem State.nextInput_toneUnits (s : State) : (s.nextInput).toneUnits = s.toneUnits := rfl
@[simp] theorem State.nextInput_need (s : State) : (s.nextInput).need = s.need := rfl
@[simp] theorem State.nextInput_seenMark (s : State) : (s.nextInput).seenMark = s.seenMark := rfl
@[simp] theorem State.nextInput_faultCause (s : State) : (s.nextInput).faultCause = s.faultCause := rfl
@[simp] theorem State.nextInput_faultInfo (s : State) : (s.nextInput).faultInfo = s.faultInfo := rfl
@[simp] theorem State.nextInput_inputs (s : State) : (s.nextInput).inputs = s.inputs.tail := rfl
@[simp] theorem State.nextInput_accepted (s : State) : (s.nextInput).accepted = s.accepted := rfl
@[simp] theorem State.nextInput_taken (s : State) : (s.nextInput).taken = s.taken := rfl

/-! ### An accepted symbol is recorded. -/

@[simp] theorem State.recordAccepted_cfg (c : SymCode) (s : State) : (s.recordAccepted c).cfg = s.cfg := rfl
@[simp] theorem State.recordAccepted_phase (c : SymCode) (s : State) : (s.recordAccepted c).phase = s.phase := rfl
@[simp] theorem State.recordAccepted_blkLeft (c : SymCode) (s : State) : (s.recordAccepted c).blkLeft = s.blkLeft := rfl
@[simp] theorem State.recordAccepted_idx (c : SymCode) (s : State) : (s.recordAccepted c).idx = s.idx := rfl
@[simp] theorem State.recordAccepted_toneUnits (c : SymCode) (s : State) : (s.recordAccepted c).toneUnits = s.toneUnits := rfl
@[simp] theorem State.recordAccepted_need (c : SymCode) (s : State) : (s.recordAccepted c).need = s.need := rfl
@[simp] theorem State.recordAccepted_seenMark (c : SymCode) (s : State) : (s.recordAccepted c).seenMark = s.seenMark := rfl
@[simp] theorem State.recordAccepted_faultCause (c : SymCode) (s : State) : (s.recordAccepted c).faultCause = s.faultCause := rfl
@[simp] theorem State.recordAccepted_faultInfo (c : SymCode) (s : State) : (s.recordAccepted c).faultInfo = s.faultInfo := rfl
@[simp] theorem State.recordAccepted_inputs (c : SymCode) (s : State) : (s.recordAccepted c).inputs = s.inputs := rfl
@[simp] theorem State.recordAccepted_accepted (c : SymCode) (s : State) : (s.recordAccepted c).accepted = s.accepted ++ [c] := rfl
@[simp] theorem State.recordAccepted_taken (c : SymCode) (s : State) : (s.recordAccepted c).taken = s.taken := rfl

/-! ### A taken sample is recorded. -/

@[simp] theorem State.recordTaken_cfg (v : Sample) (s : State) : (s.recordTaken v).cfg = s.cfg := rfl
@[simp] theorem State.recordTaken_phase (v : Sample) (s : State) : (s.recordTaken v).phase = s.phase := rfl
@[simp] theorem State.recordTaken_blkLeft (v : Sample) (s : State) : (s.recordTaken v).blkLeft = s.blkLeft := rfl
@[simp] theorem State.recordTaken_idx (v : Sample) (s : State) : (s.recordTaken v).idx = s.idx := rfl
@[simp] theorem State.recordTaken_toneUnits (v : Sample) (s : State) : (s.recordTaken v).toneUnits = s.toneUnits := rfl
@[simp] theorem State.recordTaken_need (v : Sample) (s : State) : (s.recordTaken v).need = s.need := rfl
@[simp] theorem State.recordTaken_seenMark (v : Sample) (s : State) : (s.recordTaken v).seenMark = s.seenMark := rfl
@[simp] theorem State.recordTaken_faultCause (v : Sample) (s : State) : (s.recordTaken v).faultCause = s.faultCause := rfl
@[simp] theorem State.recordTaken_faultInfo (v : Sample) (s : State) : (s.recordTaken v).faultInfo = s.faultInfo := rfl
@[simp] theorem State.recordTaken_inputs (v : Sample) (s : State) : (s.recordTaken v).inputs = s.inputs := rfl
@[simp] theorem State.recordTaken_accepted (v : Sample) (s : State) : (s.recordTaken v).accepted = s.accepted := rfl
@[simp] theorem State.recordTaken_taken (v : Sample) (s : State) : (s.recordTaken v).taken = s.taken ++ [v] := rfl

/-! ### `MARK(d)` (R100). -/

@[simp] theorem State.mark_cfg (d : Nat) (s : State) : (s.mark d).cfg = s.cfg := rfl
@[simp] theorem State.mark_phase (d : Nat) (s : State) : (s.mark d).phase = if 0 < topUpUnits s then .pre else .tone := rfl
@[simp] theorem State.mark_blkLeft (d : Nat) (s : State) : (s.mark d).blkLeft = 
    if 0 < topUpUnits s then unitBlocks s.cfg (topUpUnits s) else unitBlocks s.cfg d := rfl
@[simp] theorem State.mark_idx (d : Nat) (s : State) : (s.mark d).idx = 0 := rfl
@[simp] theorem State.mark_toneUnits (d : Nat) (s : State) : (s.mark d).toneUnits = d := rfl
@[simp] theorem State.mark_need (d : Nat) (s : State) : (s.mark d).need = 1 := rfl
@[simp] theorem State.mark_seenMark (d : Nat) (s : State) : (s.mark d).seenMark = true := rfl
@[simp] theorem State.mark_faultCause (d : Nat) (s : State) : (s.mark d).faultCause = s.faultCause := rfl
@[simp] theorem State.mark_faultInfo (d : Nat) (s : State) : (s.mark d).faultInfo = s.faultInfo := rfl
@[simp] theorem State.mark_inputs (d : Nat) (s : State) : (s.mark d).inputs = s.inputs := rfl
@[simp] theorem State.mark_accepted (d : Nat) (s : State) : (s.mark d).accepted = s.accepted := rfl
@[simp] theorem State.mark_taken (d : Nat) (s : State) : (s.mark d).taken = s.taken := rfl

/-! ### A separator (R120, R121). -/

@[simp] theorem State.raiseNeed_cfg (n : Nat) (s : State) : (s.raiseNeed n).cfg = s.cfg := rfl
@[simp] theorem State.raiseNeed_phase (n : Nat) (s : State) : (s.raiseNeed n).phase = s.phase := rfl
@[simp] theorem State.raiseNeed_blkLeft (n : Nat) (s : State) : (s.raiseNeed n).blkLeft = s.blkLeft := rfl
@[simp] theorem State.raiseNeed_idx (n : Nat) (s : State) : (s.raiseNeed n).idx = s.idx := rfl
@[simp] theorem State.raiseNeed_toneUnits (n : Nat) (s : State) : (s.raiseNeed n).toneUnits = s.toneUnits := rfl
@[simp] theorem State.raiseNeed_need (n : Nat) (s : State) : (s.raiseNeed n).need = max s.need n := rfl
@[simp] theorem State.raiseNeed_seenMark (n : Nat) (s : State) : (s.raiseNeed n).seenMark = s.seenMark := rfl
@[simp] theorem State.raiseNeed_faultCause (n : Nat) (s : State) : (s.raiseNeed n).faultCause = s.faultCause := rfl
@[simp] theorem State.raiseNeed_faultInfo (n : Nat) (s : State) : (s.raiseNeed n).faultInfo = s.faultInfo := rfl
@[simp] theorem State.raiseNeed_inputs (n : Nat) (s : State) : (s.raiseNeed n).inputs = s.inputs := rfl
@[simp] theorem State.raiseNeed_accepted (n : Nat) (s : State) : (s.raiseNeed n).accepted = s.accepted := rfl
@[simp] theorem State.raiseNeed_taken (n : Nat) (s : State) : (s.raiseNeed n).taken = s.taken := rfl

/-! ### The end of a line (R122). -/

@[simp] theorem State.endLine_cfg (s : State) : (s.endLine).cfg = s.cfg := rfl
@[simp] theorem State.endLine_phase (s : State) : (s.endLine).phase = s.phase := rfl
@[simp] theorem State.endLine_blkLeft (s : State) : (s.endLine).blkLeft = s.blkLeft := rfl
@[simp] theorem State.endLine_idx (s : State) : (s.endLine).idx = s.idx := rfl
@[simp] theorem State.endLine_toneUnits (s : State) : (s.endLine).toneUnits = s.toneUnits := rfl
@[simp] theorem State.endLine_need (s : State) : (s.endLine).need = 1 := rfl
@[simp] theorem State.endLine_seenMark (s : State) : (s.endLine).seenMark = false := rfl
@[simp] theorem State.endLine_faultCause (s : State) : (s.endLine).faultCause = s.faultCause := rfl
@[simp] theorem State.endLine_faultInfo (s : State) : (s.endLine).faultInfo = s.faultInfo := rfl
@[simp] theorem State.endLine_inputs (s : State) : (s.endLine).inputs = s.inputs := rfl
@[simp] theorem State.endLine_accepted (s : State) : (s.endLine).accepted = s.accepted := rfl
@[simp] theorem State.endLine_taken (s : State) : (s.endLine).taken = s.taken := rfl

/-! ### Taking a fault (R201). -/

@[simp] theorem State.raiseFault_cfg (x : BitVec 2) (y : BitVec 3) (s : State) : (s.raiseFault x y).cfg = s.cfg := rfl
@[simp] theorem State.raiseFault_phase (x : BitVec 2) (y : BitVec 3) (s : State) : (s.raiseFault x y).phase = .fault := rfl
@[simp] theorem State.raiseFault_blkLeft (x : BitVec 2) (y : BitVec 3) (s : State) : (s.raiseFault x y).blkLeft = s.blkLeft := rfl
@[simp] theorem State.raiseFault_idx (x : BitVec 2) (y : BitVec 3) (s : State) : (s.raiseFault x y).idx = s.idx := rfl
@[simp] theorem State.raiseFault_toneUnits (x : BitVec 2) (y : BitVec 3) (s : State) : (s.raiseFault x y).toneUnits = s.toneUnits := rfl
@[simp] theorem State.raiseFault_need (x : BitVec 2) (y : BitVec 3) (s : State) : (s.raiseFault x y).need = s.need := rfl
@[simp] theorem State.raiseFault_seenMark (x : BitVec 2) (y : BitVec 3) (s : State) : (s.raiseFault x y).seenMark = s.seenMark := rfl
@[simp] theorem State.raiseFault_faultCause (x : BitVec 2) (y : BitVec 3) (s : State) : (s.raiseFault x y).faultCause = x := rfl
@[simp] theorem State.raiseFault_faultInfo (x : BitVec 2) (y : BitVec 3) (s : State) : (s.raiseFault x y).faultInfo = y := rfl
@[simp] theorem State.raiseFault_inputs (x : BitVec 2) (y : BitVec 3) (s : State) : (s.raiseFault x y).inputs = s.inputs := rfl
@[simp] theorem State.raiseFault_accepted (x : BitVec 2) (y : BitVec 3) (s : State) : (s.raiseFault x y).accepted = s.accepted := rfl
@[simp] theorem State.raiseFault_taken (x : BitVec 2) (y : BitVec 3) (s : State) : (s.raiseFault x y).taken = s.taken := rfl

/-! ### Reset (R230). -/

@[simp] theorem State.applyReset_cfg (s : State) : (s.applyReset).cfg = s.cfg := rfl
@[simp] theorem State.applyReset_phase (s : State) : (s.applyReset).phase = .idle := rfl
@[simp] theorem State.applyReset_blkLeft (s : State) : (s.applyReset).blkLeft = 0 := rfl
@[simp] theorem State.applyReset_idx (s : State) : (s.applyReset).idx = 0 := rfl
@[simp] theorem State.applyReset_toneUnits (s : State) : (s.applyReset).toneUnits = 1 := rfl
@[simp] theorem State.applyReset_need (s : State) : (s.applyReset).need = 1 := rfl
@[simp] theorem State.applyReset_seenMark (s : State) : (s.applyReset).seenMark = false := rfl
@[simp] theorem State.applyReset_faultCause (s : State) : (s.applyReset).faultCause = 0#2 := rfl
@[simp] theorem State.applyReset_faultInfo (s : State) : (s.applyReset).faultInfo = 0#3 := rfl
@[simp] theorem State.applyReset_inputs (s : State) : (s.applyReset).inputs = s.inputs := rfl
@[simp] theorem State.applyReset_accepted (s : State) : (s.applyReset).accepted = s.accepted := rfl
@[simp] theorem State.applyReset_taken (s : State) : (s.applyReset).taken = s.taken := rfl

/-! ### An offered symbol (`withFetchWord`). -/

@[simp] theorem State.offered_cfg (c : SymCode) (s : State) : (s.offered c).cfg = s.cfg := rfl
@[simp] theorem State.offered_phase (c : SymCode) (s : State) : (s.offered c).phase = .idle := rfl
@[simp] theorem State.offered_blkLeft (c : SymCode) (s : State) : (s.offered c).blkLeft = 0 := rfl
@[simp] theorem State.offered_idx (c : SymCode) (s : State) : (s.offered c).idx = 0 := rfl
@[simp] theorem State.offered_toneUnits (c : SymCode) (s : State) : (s.offered c).toneUnits = s.toneUnits := rfl
@[simp] theorem State.offered_need (c : SymCode) (s : State) : (s.offered c).need = s.need := rfl
@[simp] theorem State.offered_seenMark (c : SymCode) (s : State) : (s.offered c).seenMark = s.seenMark := rfl
@[simp] theorem State.offered_faultCause (c : SymCode) (s : State) : (s.offered c).faultCause = 0#2 := rfl
@[simp] theorem State.offered_faultInfo (c : SymCode) (s : State) : (s.offered c).faultInfo = 0#3 := rfl
@[simp] theorem State.offered_inputs (c : SymCode) (s : State) : (s.offered c).inputs = Inputs.offer c :: s.inputs := rfl
@[simp] theorem State.offered_accepted (c : SymCode) (s : State) : (s.offered c).accepted = s.accepted := rfl
@[simp] theorem State.offered_taken (c : SymCode) (s : State) : (s.offered c).taken = s.taken := rfl

/-! ### The state after reset (R37). -/

@[simp] theorem State.resetIn_cfg (c : Config) : (State.resetIn c).cfg = c := rfl
@[simp] theorem State.resetIn_phase (c : Config) : (State.resetIn c).phase = .idle := rfl
@[simp] theorem State.resetIn_blkLeft (c : Config) : (State.resetIn c).blkLeft = 0 := rfl
@[simp] theorem State.resetIn_idx (c : Config) : (State.resetIn c).idx = 0 := rfl
@[simp] theorem State.resetIn_toneUnits (c : Config) : (State.resetIn c).toneUnits = 1 := rfl
@[simp] theorem State.resetIn_need (c : Config) : (State.resetIn c).need = 1 := rfl
@[simp] theorem State.resetIn_seenMark (c : Config) : (State.resetIn c).seenMark = false := rfl
@[simp] theorem State.resetIn_faultCause (c : Config) : (State.resetIn c).faultCause = 0#2 := rfl
@[simp] theorem State.resetIn_faultInfo (c : Config) : (State.resetIn c).faultInfo = 0#3 := rfl
@[simp] theorem State.resetIn_inputs (c : Config) : (State.resetIn c).inputs = [] := rfl
@[simp] theorem State.resetIn_accepted (c : Config) : (State.resetIn c).accepted = [] := rfl
@[simp] theorem State.resetIn_taken (c : Config) : (State.resetIn c).taken = [] := rfl

/-! ### The end of a phase writes `phase` and `blk_left` only (R142). -/

@[simp] theorem State.endPhase_cfg (s : State) : s.endPhase.cfg = s.cfg := by
  unfold State.endPhase; split <;> rfl
@[simp] theorem State.endPhase_toneUnits (s : State) : s.endPhase.toneUnits = s.toneUnits := by
  unfold State.endPhase; split <;> rfl
@[simp] theorem State.endPhase_need (s : State) : s.endPhase.need = s.need := by
  unfold State.endPhase; split <;> rfl
@[simp] theorem State.endPhase_seenMark (s : State) : s.endPhase.seenMark = s.seenMark := by
  unfold State.endPhase; split <;> rfl
@[simp] theorem State.endPhase_faultCause (s : State) : s.endPhase.faultCause = s.faultCause := by
  unfold State.endPhase; split <;> rfl
@[simp] theorem State.endPhase_faultInfo (s : State) : s.endPhase.faultInfo = s.faultInfo := by
  unfold State.endPhase; split <;> rfl
@[simp] theorem State.endPhase_inputs (s : State) : s.endPhase.inputs = s.inputs := by
  unfold State.endPhase; split <;> rfl
@[simp] theorem State.endPhase_accepted (s : State) : s.endPhase.accepted = s.accepted := by
  unfold State.endPhase; split <;> rfl
@[simp] theorem State.endPhase_taken (s : State) : s.endPhase.taken = s.taken := by
  unfold State.endPhase; split <;> rfl

/-! ### A taken beat writes `phase`, `blk_left` and `idx` only (R142). -/

@[simp] theorem State.advance_cfg (s : State) : s.advance.cfg = s.cfg := by
  unfold State.advance; split
  · rfl
  · split
    · rfl
    · simp
@[simp] theorem State.advance_toneUnits (s : State) : s.advance.toneUnits = s.toneUnits := by
  unfold State.advance; split
  · rfl
  · split
    · rfl
    · simp
@[simp] theorem State.advance_need (s : State) : s.advance.need = s.need := by
  unfold State.advance; split
  · rfl
  · split
    · rfl
    · simp
@[simp] theorem State.advance_seenMark (s : State) : s.advance.seenMark = s.seenMark := by
  unfold State.advance; split
  · rfl
  · split
    · rfl
    · simp
@[simp] theorem State.advance_faultCause (s : State) : s.advance.faultCause = s.faultCause := by
  unfold State.advance; split
  · rfl
  · split
    · rfl
    · simp
@[simp] theorem State.advance_faultInfo (s : State) : s.advance.faultInfo = s.faultInfo := by
  unfold State.advance; split
  · rfl
  · split
    · rfl
    · simp
@[simp] theorem State.advance_inputs (s : State) : s.advance.inputs = s.inputs := by
  unfold State.advance; split
  · rfl
  · split
    · rfl
    · simp
@[simp] theorem State.advance_accepted (s : State) : s.advance.accepted = s.accepted := by
  unfold State.advance; split
  · rfl
  · split
    · rfl
    · simp
@[simp] theorem State.advance_taken (s : State) : s.advance.taken = s.taken := by
  unfold State.advance; split
  · rfl
  · split
    · rfl
    · simp

end Sys2Proof.Machine
end

