-- ==== Sys2Proof/Laws/Ops.lean ====
section
/-! SUPPORT. One lemma for each shared operation that says once all it can do: a command offered to a ready block and to
one that is not, the advance after a beat, the choice of the event, and the step. -/

namespace Sys2Proof.Machine

/-! ### Commands -/

/-- The acceptance action of a command, as a function on states (R100, R120 to R123). -/
def acceptAction : Instr → State → State
  | .dot => State.mark 1
  | .dash => State.mark 3
  | .lsep => State.raiseNeed 3
  | .wgap => State.raiseNeed 7
  | .eol => State.endLine
  | .reserved5 => State.raiseFault causeIllegalSymbol 5#3
  | .reserved6 => State.raiseFault causeIllegalSymbol 6#3
  | .reserved7 => State.raiseFault causeIllegalSymbol 7#3

/-- All a command can do: its acceptance action when the block is ready, nothing otherwise. -/
theorem exec_eq (i : Instr) (s : State) :
    exec i s = .next (if s.phase = .idle then acceptAction i s else s) := by
  cases i <;> simp [exec, execDot, execDash, execLsep, execWgap, execEol, execReserved5, execReserved6, execReserved7,
    whenReady, State.symReady, acceptAction, dotUnits, dashUnits, lgapUnits, wgapUnits]

theorem exec_of_idle (i : Instr) {s : State} (h : s.phase = .idle) : exec i s = .next (acceptAction i s) := by
  simp [exec_eq, h]

theorem exec_of_not_idle (i : Instr) {s : State} (h : s.phase ≠ .idle) : exec i s = .next s := by
  simp [exec_eq, h]

/-- No acceptance action touches the configuration, the coming inputs or the streams. -/
theorem acceptAction_keeps (i : Instr) (s : State) :
    (acceptAction i s).cfg = s.cfg ∧ (acceptAction i s).inputs = s.inputs ∧
      (acceptAction i s).accepted = s.accepted ∧ (acceptAction i s).taken = s.taken := by
  cases i <;> exact ⟨rfl, rfl, rfl, rfl⟩

/-! ### The LUT -/

theorem memRead_of_lt {c : Config} (hc : c.WellFormed) {k : Nat} (hk : k < c.nC) :
    ∃ v, c.toneLut[k]? = some v ∧ memRead c k = .ok v ∧ v ∈ c.toneLut := by
  have hlen : k < c.toneLut.length := by rw [hc.2.2.2.1]; exact hk
  exact ⟨c.toneLut[k], List.getElem?_eq_getElem hlen, by simp [memRead, hlen], List.getElem_mem hlen⟩

theorem memRead_of_ge {c : Config} (hc : c.WellFormed) {k : Nat} (hk : c.nC ≤ k) :
    memRead c k = .error .lutIndexOutOfRange := by
  have : c.toneLut[k]? = none := by rw [List.getElem?_eq_none_iff, hc.2.2.2.1]; exact hk
  simp [memRead, this]

/-- The byte addresses of the laid-out words are the first ones from `a` on. -/
theorem cellsFrom_address (vs : List Int) : ∀ a, ∀ x ∈ cellsFrom a vs, a ≤ x.1 ∧ x.1 < a + 2 * vs.length := by
  induction vs with
  | nil => simp [cellsFrom]
  | cons v vs ih =>
    intro a x hx
    simp only [cellsFrom, List.mem_cons] at hx
    rcases hx with rfl | rfl | hx
    · simp
    · simp; omega
    · have := ih (a + 2) x hx
      simp only [List.length_cons]; omega

/-- Laying words out as cells keeps the canonical form of memory: it is the one operation that makes a memory, and the
block has none that writes one (R50, R51). -/
theorem cellsFrom_wf (vs : List Int) : ∀ a, Memory.wf (cellsFrom a vs) := by
  induction vs with
  | nil => intro a; simp [cellsFrom]
  | cons v vs ih =>
    intro a
    have hx := cellsFrom_address vs (a + 2)
    simp only [Memory.wf, cellsFrom, List.pairwise_cons, List.mem_cons, forall_eq_or_imp]
    exact ⟨⟨by omega, fun x h => by have := hx x h; omega⟩, fun x h => by have := hx x h; omega, ih (a + 2)⟩

/-- The ROM as memory cells is in canonical form. -/
theorem lutCells_wf (c : Config) : Memory.wf (lutCells c) := cellsFrom_wf c.toneLut 0

/-! ### The beat step -/

/-- All a taken beat can do (R142). -/
theorem advance_cases (s : State) :
    (s.idx + 1 < s.cfg.nC ∧ s.advance = { s with idx := s.idx + 1 }) ∨
    (¬ s.idx + 1 < s.cfg.nC ∧ 1 < s.blkLeft ∧ s.advance = { s with idx := 0, blkLeft := s.blkLeft - 1 }) ∨
    (¬ s.idx + 1 < s.cfg.nC ∧ ¬ 1 < s.blkLeft ∧ s.advance = State.endPhase { s with idx := 0 }) := by
  unfold State.advance
  split
  · exact .inl ⟨‹_›, rfl⟩
  · split
    · exact .inr (.inl ⟨‹_›, ‹_›, rfl⟩)
    · exact .inr (.inr ⟨‹_›, ‹_›, rfl⟩)

/-- A state that meets R38 and has a well-formed configuration offers a sample in every phase. -/
theorem snkData_ok {s : State} (hc : s.cfg.WellFormed) (h : s.Consistent) : ∃ v, s.snkData = .ok v := by
  unfold State.snkData sampleOf
  cases hp : s.phase <;> simp only <;> try exact ⟨_, rfl⟩
  obtain ⟨v, -, hv, -⟩ := memRead_of_lt hc (h.2.1 (by simp [hp, Phase.isBusy])).2
  exact ⟨bits16 v, by simp [hv]⟩

/-- In an open phase the sink's answer is the event. -/
theorem channelEvent_of_busy {p : Phase} (h : p.isBusy = true) (v : Sample) (i : Inputs) :
    channelEvent p v i = sinkAnswer v i := by
  cases p <;> simp_all [Phase.isBusy, channelEvent]

/-! ### The step -/

theorem step_of_wellFormed {s : State} (hc : s.cfg.WellFormed) : step s = stepEvent s := if_pos hc

theorem step_of_illFormed {s : State} (hc : ¬ s.cfg.WellFormed) : step s = .refused .illFormedConfig := if_neg hc

theorem eventAt_of_reset {s : State} {i : Inputs} (hi : i.rst = true) : eventAt s i = .ok (some .reset) := if_pos hi

/-- Without reset, all that the choice of the event can be: one of the three unreachable states, or the channel's. -/
theorem eventAt_cases (s : State) {i : Inputs} (hi : i.rst = false) :
    (∃ f, s.snkData = .error f ∧ eventAt s i = .error f) ∨
    (∃ v, s.snkData = .ok v ∧
      ((s.faultCause = causeReserved ∧ eventAt s i = .error .reservedFaultCause) ∨
       (s.faultCause ≠ causeReserved ∧ ¬ s.Consistent ∧ eventAt s i = .error .outsideInvariants) ∨
       (s.faultCause ≠ causeReserved ∧ s.Consistent ∧ eventAt s i = .ok (channelEvent s.phase v i)))) := by
  have hn : ¬ i.rst = true := by simp [hi]
  rw [eventAt, if_neg hn]
  cases s.snkData with
  | error f => exact .inl ⟨f, rfl, rfl⟩
  | ok v =>
    refine .inr ⟨v, rfl, ?_⟩
    by_cases hr : s.faultCause = causeReserved
    · exact .inl ⟨hr, if_pos hr⟩
    · by_cases h : s.Consistent
      · exact .inr (.inr ⟨hr, h, (if_neg hr).trans (if_pos h)⟩)
      · exact .inr (.inl ⟨hr, h, (if_neg hr).trans (if_neg h)⟩)

/-- The event of a step without reset in a state that meets R38. -/
theorem eventAt_of_consistent {s : State} {i : Inputs} {v : Sample} (hi : i.rst = false) (hv : s.snkData = .ok v)
    (hr : s.faultCause ≠ causeReserved) (h : s.Consistent) : eventAt s i = .ok (channelEvent s.phase v i) := by
  obtain ⟨f, hf, -⟩ | ⟨w, hw, ⟨hc, -⟩ | ⟨-, hc, -⟩ | ⟨-, -, he⟩⟩ := eventAt_cases s hi
  · simp [hf] at hv
  · exact absurd hc hr
  · exact absurd h hc
  · rw [hv] at hw
    injection hw with hw
    rw [he, hw]

/-- A reset happens in any state. -/
theorem step_reset {s : State} (hc : s.cfg.WellFormed) (hi : s.input.rst = true) :
    step s = .next s.nextInput.applyReset := by
  rw [step_of_wellFormed hc, stepEvent, eventAt_of_reset hi]
  rfl

/-- A step without reset in a state that meets R38: the channel's event, or a wait. -/
theorem step_of_consistent {s : State} {v : Sample} (hc : s.cfg.WellFormed) (hi : s.input.rst = false)
    (hv : s.snkData = .ok v) (hr : s.faultCause ≠ causeReserved) (h : s.Consistent) :
    step s = match channelEvent s.phase v s.input with
      | none => .next s.nextInput
      | some e => perform e s.nextInput := by
  rw [step_of_wellFormed hc, stepEvent, eventAt_of_consistent hi hv hr h]
  cases channelEvent s.phase v s.input <;> rfl

/-- All the channel can do: nothing, an accepted symbol in `IDLE`, or the sink's answer while a beat is offered. -/
theorem channelEvent_cases (p : Phase) (v : Sample) (i : Inputs) :
    channelEvent p v i = none ∨
    (p = .idle ∧ i.symValid = true ∧ channelEvent p v i = some (.accept i.symCode)) ∨
    (p.isBusy = true ∧ i.snkErr = false ∧ i.snkReady = true ∧ channelEvent p v i = some (.beat v)) ∨
    (p.isBusy = true ∧ i.snkErr = true ∧ channelEvent p v i = some .sinkFail) := by
  have sink : sinkAnswer v i = none ∨ (i.snkErr = false ∧ i.snkReady = true ∧ sinkAnswer v i = some (.beat v)) ∨
      (i.snkErr = true ∧ sinkAnswer v i = some .sinkFail) := by
    unfold sinkAnswer
    cases i.snkErr <;> cases i.snkReady <;> simp
  cases p <;> simp only [channelEvent, Phase.isBusy]
  case idle => cases i.symValid <;> simp
  case fault => exact .inl trivial
  all_goals simpa using sink

/-- All a step that answers a next state can have done: a reset, a wait or stall, an accepted symbol, a taken beat, or a
failed one. -/
theorem step_cases {s t : State} (h : step s = .next t) :
    s.cfg.WellFormed ∧
    ((s.input.rst = true ∧ t = s.nextInput.applyReset) ∨
     (s.input.rst = false ∧ s.Consistent ∧ s.faultCause ≠ causeReserved ∧ ∃ v, s.snkData = .ok v ∧
       ((channelEvent s.phase v s.input = none ∧ t = s.nextInput) ∨
        (s.phase = .idle ∧ s.input.symValid = true ∧
          t = acceptAction (decode s.input.symCode) (s.nextInput.recordAccepted s.input.symCode)) ∨
        (s.phase.isBusy = true ∧ s.input.snkErr = false ∧ s.input.snkReady = true ∧
          t = s.nextInput.advance.recordTaken v) ∨
        (s.phase.isBusy = true ∧ s.input.snkErr = true ∧ t = s.nextInput.raiseFault causeSinkError 0#3)))) := by
  by_cases hc : s.cfg.WellFormed
  swap
  · rw [step_of_illFormed hc] at h
    exact absurd h (by simp)
  refine ⟨hc, ?_⟩
  cases hi : s.input.rst
  swap
  · rw [step_reset hc hi] at h
    exact .inl ⟨rfl, by injection h with h; exact h.symm⟩
  refine .inr ⟨rfl, ?_⟩
  rw [step_of_wellFormed hc, stepEvent] at h
  obtain ⟨f, -, he⟩ | ⟨v, hv, ⟨-, he⟩ | ⟨-, -, he⟩ | ⟨hr, hs, he⟩⟩ := eventAt_cases s hi <;> rw [he] at h
  · exact absurd h (by simp)
  · exact absurd h (by simp)
  · exact absurd h (by simp)
  · refine ⟨hs, hr, v, hv, ?_⟩
    obtain hn | ⟨hp, hy, hn⟩ | ⟨hp, he, hy, hn⟩ | ⟨hp, he, hn⟩ := channelEvent_cases s.phase v s.input <;>
      rw [hn] at h ⊢ <;> simp only [perform] at h
    · injection h with h
      exact .inl ⟨rfl, h.symm⟩
    · rw [exec_of_idle _ (by simpa using hp)] at h
      injection h with h
      exact .inr (.inl ⟨hp, hy, h.symm⟩)
    · injection h with h
      exact .inr (.inr (.inl ⟨hp, he, hy, h.symm⟩))
    · injection h with h
      exact .inr (.inr (.inr ⟨hp, he, h.symm⟩))

end Sys2Proof.Machine
end

