-- ==== Sys2Proof/Laws/Legal.lean ====
section
/-! SUPPORT. Each shared operation keeps the legal states. -/

namespace Sys2Proof.Machine

/-- A state is legal when the decidable clauses of legality hold, taken together. -/
theorem legal_of {s : State}
    (h : s.cfg.WellFormed ∧ s.Consistent ∧ s.faultCause ≠ causeReserved ∧
      (s.faultCause = causeIllegalSymbol → s.faultInfo = 5#3 ∨ s.faultInfo = 6#3 ∨ s.faultInfo = 7#3) ∧
      (s.faultCause ≠ causeIllegalSymbol → s.faultInfo = 0#3) ∧ s.blkLeft ≤ 6 * s.cfg.U ∧ s.idx < s.cfg.nC ∧
      (s.phase.isBusy = true → s.seenMark = true ∧ s.need = 1)) : s.Legal :=
  ⟨h.1, h.2.1, h.2.2.1, h.2.2.2.1, h.2.2.2.2.1, h.2.2.2.2.2.1, h.2.2.2.2.2.2.1, h.2.2.2.2.2.2.2⟩

/-- `MARK(d)` keeps the legal states. -/
theorem mark_legal {s : State} (hl : s.Legal) (hp : s.phase = .idle) {d : Nat} (hd : d = 1 ∨ d = 3) : (s.mark d).Legal := by
  have hU := hl.config.1
  have hN := hl.config.2.1
  have hn := hl.consistent.2.2.2.2.2.1.1
  have hcause := hl.consistent.2.2.2.2.2.2
  have htop : topUpUnits s ≤ 6 := by
    unfold topUpUnits igapUnits; split <;> omega
  have h6 : topUpUnits s * s.cfg.U ≤ 6 * s.cfg.U := Nat.mul_le_mul_right _ htop
  have hnone : s.faultCause = causeNone := hcause.2 (by simp [hp])
  have hd1 : 1 * s.cfg.U ≤ d * s.cfg.U := Nat.mul_le_mul_right _ (by omega)
  have hd6 : d * s.cfg.U ≤ 6 * s.cfg.U := Nat.mul_le_mul_right _ (by omega)
  by_cases h : 0 < topUpUnits s
  · have h1 : 1 * s.cfg.U ≤ topUpUnits s * s.cfg.U := Nat.mul_le_mul_right _ h
    refine ⟨hl.config, ⟨?_, ?_, ?_, ?_, ?_, ⟨?_, ?_⟩, ?_⟩, hl.cause, hl.infoIllegal, hl.infoOther, ?_, ?_, ?_⟩ <;>
      simp [h, unitBlocks, hnone, Phase.isBusy, hd] <;> omega
  · refine ⟨hl.config, ⟨?_, ?_, ?_, ?_, ?_, ⟨?_, ?_⟩, ?_⟩, hl.cause, hl.infoIllegal, hl.infoOther, ?_, ?_, ?_⟩ <;>
      simp [h, unitBlocks, hnone, Phase.isBusy, hd] <;> omega

/-- So does any write of `need` within its range in `IDLE`. -/
theorem gapState_legal {s : State} (hl : s.Legal) (hp : s.phase = .idle) (n : Nat) (b : Bool) (hn : n = 1 ∨ n = 3 ∨ n = 7) :
    State.Legal { s with need := n, seenMark := b } := by
  obtain ⟨h1, h2, h3, h4, h5, ⟨h6, h7⟩, h8⟩ := hl.consistent
  exact ⟨hl.config, ⟨h1, h2, h3, h4, h5, ⟨hn, h7⟩, h8⟩, hl.cause, hl.infoIllegal, hl.infoOther, hl.blkLeftRange, hl.idxRange,
    by simp [hp, Phase.isBusy]⟩

/-- Taking either fault keeps them. -/
theorem raiseFault_legal {s : State} (hl : s.Legal) (x : BitVec 2) (y : BitVec 3)
    (h : (x = causeIllegalSymbol ∧ (y = 5#3 ∨ y = 6#3 ∨ y = 7#3)) ∨ (x = causeSinkError ∧ y = 0#3)) : (s.raiseFault x y).Legal := by
  obtain ⟨h1, h2, h3, h4, h5, ⟨h6, h7⟩, h8⟩ := hl.consistent
  refine ⟨hl.config, ⟨?_, ?_, ?_, ?_, ?_, ⟨h6, h7⟩, ?_⟩, ?_, ?_, ?_, hl.blkLeftRange, hl.idxRange, ?_⟩ <;>
    rcases h with ⟨rfl, h⟩ | ⟨rfl, rfl⟩ <;> simp [Phase.isBusy, causeNone, causeReserved, causeIllegalSymbol, causeSinkError]
  exact h

/-- Every acceptance action keeps them. -/
theorem acceptAction_legal {s : State} (hl : s.Legal) (hp : s.phase = .idle) (i : Instr) : (acceptAction i s).Legal := by
  have hn := hl.consistent.2.2.2.2.2.1.1
  cases i
  · exact mark_legal hl hp (.inl rfl)
  · exact mark_legal hl hp (.inr rfl)
  · exact gapState_legal hl hp (max s.need 3) s.seenMark (by omega)
  · exact gapState_legal hl hp (max s.need 7) s.seenMark (by omega)
  · exact gapState_legal hl hp 1 false (by omega)
  · exact raiseFault_legal hl _ _ (.inl ⟨rfl, by decide⟩)
  · exact raiseFault_legal hl _ _ (.inl ⟨rfl, by decide⟩)
  · exact raiseFault_legal hl _ _ (.inl ⟨rfl, by decide⟩)

/-- A taken beat keeps them. -/
theorem advance_legal {s : State} (hl : s.Legal) (hb : s.phase.isBusy = true) : s.advance.Legal := by
  have hU := hl.config.1
  have hN := hl.config.2.1
  have hm := hl.busyMark hb
  have hr := hl.blkLeftRange
  have hi := hl.idxRange
  obtain ⟨h1, h2, h3, h4, h5, ⟨h6, h7⟩, h8⟩ := hl.consistent
  have h2 := h2 hb
  have ht : s.toneUnits * s.cfg.U ≤ 6 * s.cfg.U ∧ 1 ≤ s.toneUnits * s.cfg.U := by
    rcases h7 with h | h <;> rw [h] <;> omega
  obtain ⟨hh, he⟩ | ⟨hh, hh3, he⟩ | ⟨hh, hh3, he⟩ := advance_cases s <;> rw [he]
  · cases hp : s.phase <;> simp [hp, Phase.isBusy] at hb <;> simp [hp] at h3 h4 h5 h8 <;>
    refine ⟨hl.config, ⟨?_, ?_, ?_, ?_, ?_, ⟨h6, h7⟩, ?_⟩, hl.cause, hl.infoIllegal, hl.infoOther, ?_, ?_, ?_⟩ <;>
      simp [Phase.isBusy, h8, hm] <;> omega
  · cases hp : s.phase <;> simp [hp, Phase.isBusy] at hb <;> simp [hp] at h3 h4 h5 h8 <;>
    refine ⟨hl.config, ⟨?_, ?_, ?_, ?_, ?_, ⟨h6, h7⟩, ?_⟩, hl.cause, hl.infoIllegal, hl.infoOther, ?_, ?_, ?_⟩ <;>
      simp [Phase.isBusy, h8, hm] <;> omega
  · cases hp : s.phase <;> simp [hp, Phase.isBusy] at hb <;> simp [hp] at h3 h4 h5 h8 <;>
    simp only [State.endPhase] <;>
    refine ⟨hl.config, ⟨?_, ?_, ?_, ?_, ?_, ⟨h6, h7⟩, ?_⟩, hl.cause, hl.infoIllegal, hl.infoOther, ?_, ?_, ?_⟩ <;>
      simp [Phase.isBusy, h8, hm, unitBlocks, igapUnits] <;> omega

/-- The coming inputs and the streams are no part of legality. -/
theorem streams_legal {s : State} (hl : s.Legal) (a : List Inputs) (b : List SymCode) (c : List Sample) :
    State.Legal { s with inputs := a, accepted := b, taken := c } :=
  ⟨hl.config, hl.consistent, hl.cause, hl.infoIllegal, hl.infoOther, hl.blkLeftRange, hl.idxRange, hl.busyMark⟩

/-- Reset gives a legal state from any state at all with a well-formed configuration. -/
theorem applyReset_legal {s : State} (hc : s.cfg.WellFormed) : s.applyReset.Legal := by
  refine ⟨hc, ⟨?_, ?_, ?_, ?_, ?_, ⟨?_, ?_⟩, ?_⟩, ?_, ?_, ?_, ?_, ?_, ?_⟩ <;>
    simp [Phase.isBusy, causeNone, causeReserved, causeIllegalSymbol]
  exact hc.2.1

end Sys2Proof.Machine
end

