-- ==== Sys2Proof/Laws/LineEncoder.lean ====
section
/-! SUPPORT. The small lemmas of the host's tables. -/

namespace Sys2Proof.Machine

/-- The listed letters and digits are the two ranges of character numbers. -/
theorem mem_lettersAndDigits_iff (c : Char) :
    c ∈ lettersAndDigits ↔ (65 ≤ c.toNat ∧ c.toNat ≤ 90) ∨ (48 ≤ c.toNat ∧ c.toNat ≤ 57) := by
  constructor
  · have h : ∀ x ∈ lettersAndDigits, (65 ≤ x.toNat ∧ x.toNat ≤ 90) ∨ (48 ≤ x.toNat ∧ x.toNat ≤ 57) := by
      simp [lettersAndDigits]
    exact h c
  · intro h
    rw [← Char.ofNat_toNat c]
    generalize c.toNat = n at h
    rcases h with ⟨lo, hi⟩ | ⟨lo, hi⟩ <;> interval_cases n <;> simp [lettersAndDigits]

/-- A capital letter or a digit is its own lookup key. -/
theorem upperChar_of_mem {c : Char} (h : c ∈ lettersAndDigits) : upperChar c = c := by
  rw [mem_lettersAndDigits_iff] at h
  exact if_neg (by omega)

/-- The rows of a table are those of the codes and those of the punctuation. -/
@[simp] theorem CodeTable.mem_rows {t : CodeTable} {r : Char × List Mark} : r ∈ t.rows ↔ r ∈ t.codes ∨ r ∈ t.punct :=
  List.mem_append

/-- The space finds the word gap, whatever the table. -/
@[simp] theorem CodeTable.lookup_space (t : CodeTable) : t.lookup ' ' = some [.wgap] := if_pos rfl

/-- Every other character finds the row of its upper-case form. -/
theorem CodeTable.lookup_of_ne_space (t : CodeTable) {c : Char} (h : c ≠ ' ') :
    t.lookup c = (t.rows.lookup (upperChar c)).map fun code => code.map Mark.symbol := if_neg h

end Sys2Proof.Machine
end

