-- ==== Sys2Proof/Laws/PerInstr.lean ====
section
/-! SUPPORT. The family TableWord: every command is well-formed, and its word, numbered as the opcode table numbers it,
decodes to it. One lemma for each constructor of `Instr`. -/

/-- The command is well-formed and its table word stands for it (R70, R71). -/
def Sys2Proof.Laws.TableWord.Statement (i : Sys2Proof.Instr) : Prop :=
  i.wellFormed = true ∧ Sys2Proof.decodeTableWord 8 (Sys2Proof.encode i).toNat = some i

theorem Sys2Proof.Laws.TableWord.dot : Sys2Proof.Laws.TableWord.Statement .dot := ⟨rfl, rfl⟩

theorem Sys2Proof.Laws.TableWord.dash : Sys2Proof.Laws.TableWord.Statement .dash := ⟨rfl, rfl⟩

theorem Sys2Proof.Laws.TableWord.lsep : Sys2Proof.Laws.TableWord.Statement .lsep := ⟨rfl, rfl⟩

theorem Sys2Proof.Laws.TableWord.wgap : Sys2Proof.Laws.TableWord.Statement .wgap := ⟨rfl, rfl⟩

theorem Sys2Proof.Laws.TableWord.eol : Sys2Proof.Laws.TableWord.Statement .eol := ⟨rfl, rfl⟩

theorem Sys2Proof.Laws.TableWord.reserved5 : Sys2Proof.Laws.TableWord.Statement .reserved5 := ⟨rfl, rfl⟩

theorem Sys2Proof.Laws.TableWord.reserved6 : Sys2Proof.Laws.TableWord.Statement .reserved6 := ⟨rfl, rfl⟩

theorem Sys2Proof.Laws.TableWord.reserved7 : Sys2Proof.Laws.TableWord.Statement .reserved7 := ⟨rfl, rfl⟩
end

