-- ==== Sys2Proof/Laws/Stream.lean ====
section
/-! SUPPORT. The samples of blocks and what a state owes the sink: one lemma for each of the operations that change what
is owed. -/

namespace Sys2Proof.Machine

/-- Every block is `N_C` samples (R143). -/
theorem blockOf_length {c : Config} (hc : c.WellFormed) (b : BlockKind) : (blockOf c b).length = c.nC := by
  cases b
  · simp [blockOf, toneBlock, hc.2.2.2.1]
  · simp [blockOf, silenceBlock]

@[simp] theorem blocks_zero (c : Config) (b : BlockKind) : blocks c b 0 = [] := rfl

theorem blocks_succ (c : Config) (b : BlockKind) (n : Nat) : blocks c b (n + 1) = blockOf c b ++ blocks c b n := by
  simp [blocks, List.replicate_succ]

theorem blocks_of_pos (c : Config) (b : BlockKind) {n : Nat} (h : 1 ≤ n) :
    blocks c b n = restOfBlock c b 0 ++ blocks c b (n - 1) := by
  obtain ⟨m, rfl⟩ : ∃ m, n = m + 1 := ⟨n - 1, by omega⟩
  simp [blocks_succ, restOfBlock]

theorem blocks_length {c : Config} (hc : c.WellFormed) (b : BlockKind) (n : Nat) :
    (blocks c b n).length = n * c.nC := by
  induction n with
  | zero => simp
  | succ n ih => rw [blocks_succ, List.length_append, ih, blockOf_length hc]; ring

/-- Nothing is left of a block whose last sample is out. -/
theorem restOfBlock_last {c : Config} (hc : c.WellFormed) (b : BlockKind) {k : Nat} (h : c.nC ≤ k) :
    restOfBlock c b k = [] := by
  rw [restOfBlock, List.drop_eq_nil_iff, blockOf_length hc]; exact h

theorem restOfBlock_silence {c : Config} {k : Nat} (h : k < c.nC) :
    restOfBlock c .silence k = 0#16 :: restOfBlock c .silence (k + 1) := by
  simp only [restOfBlock, blockOf, silenceBlock, List.drop_replicate]
  rw [show c.nC - k = (c.nC - (k + 1)) + 1 by omega, List.replicate_succ]

theorem restOfBlock_tone {c : Config} {k : Nat} {v : Int} (h : c.toneLut[k]? = some v) :
    restOfBlock c .tone k = bits16 v :: restOfBlock c .tone (k + 1) := by
  obtain ⟨hk, rfl⟩ := List.getElem?_eq_some_iff.mp h
  simp only [restOfBlock, blockOf, toneBlock]
  rw [List.drop_eq_getElem_cons (by simpa using hk)]
  simp

/-- While output is owed, the offered sample is the next one owed, and a taken beat leaves the rest owed (R60, R142). -/
theorem owed_advance {s : State} (hl : s.Legal) (hb : s.phase.isBusy = true) {v : Sample} (hv : s.snkData = .ok v) :
    s.owed = v :: s.advance.owed := by
  have hU := hl.config.1
  have hx := (hl.consistent.2.1 hb)
  have hcfg := hl.config
  cases hp : s.phase <;> simp only [hp, Phase.isBusy] at hb <;> try contradiction
  · simp only [State.snkData, sampleOf, hp] at hv
    injection hv with hv
    have ht : 1 ≤ unitBlocks s.cfg s.toneUnits := by
      unfold unitBlocks
      rcases hl.consistent.2.2.2.2.2.1.2 with h | h <;> rw [h] <;> omega
    obtain ⟨h1, h2⟩ | ⟨h1, h3, h2⟩ | ⟨h1, h3, h2⟩ := advance_cases s <;> rw [h2]
    · simp only [State.owed, hp, restOfBlock_silence hx.2, ← hv]; rfl
    · simp only [State.owed, hp, restOfBlock_silence hx.2, ← hv, restOfBlock_last hcfg .silence (Nat.not_lt.mp h1)]
      rw [blocks_of_pos s.cfg .silence (n := s.blkLeft - 1) (by omega)]; rfl
    · have hb1 : s.blkLeft - 1 = 0 := by omega
      simp only [State.endPhase, State.owed, hp, restOfBlock_silence hx.2, ← hv, restOfBlock_last hcfg .silence (Nat.not_lt.mp h1), hb1]
      rw [blocks_of_pos s.cfg .tone ht]; rfl
  · simp only [State.snkData, sampleOf, hp] at hv
    obtain ⟨x, hx1, hx2, -⟩ := memRead_of_lt hcfg hx.2
    rw [hx2] at hv
    injection hv with hv
    obtain ⟨h1, h2⟩ | ⟨h1, h3, h2⟩ | ⟨h1, h3, h2⟩ := advance_cases s <;> rw [h2]
    · simp only [State.owed, hp, restOfBlock_tone hx1, ← hv]; rfl
    · simp only [State.owed, hp, restOfBlock_tone hx1, ← hv, restOfBlock_last hcfg .tone (Nat.not_lt.mp h1)]
      rw [blocks_of_pos s.cfg .tone (n := s.blkLeft - 1) (by omega)]; rfl
    · have hb1 : s.blkLeft - 1 = 0 := by omega
      simp only [State.endPhase, State.owed, hp, restOfBlock_tone hx1, ← hv, restOfBlock_last hcfg .tone (Nat.not_lt.mp h1), hb1]
      rw [igapBlocks, blocks_of_pos s.cfg .silence (n := unitBlocks s.cfg igapUnits) (by simp [unitBlocks, igapUnits]; omega)]; rfl
  · simp only [State.snkData, sampleOf, hp] at hv
    injection hv with hv
    obtain ⟨h1, h2⟩ | ⟨h1, h3, h2⟩ | ⟨h1, h3, h2⟩ := advance_cases s <;> rw [h2]
    · simp only [State.owed, hp, restOfBlock_silence hx.2, ← hv]; rfl
    · simp only [State.owed, hp, restOfBlock_silence hx.2, ← hv, restOfBlock_last hcfg .silence (Nat.not_lt.mp h1)]
      rw [blocks_of_pos s.cfg .silence (n := s.blkLeft - 1) (by omega)]; rfl
    · have hb1 : s.blkLeft - 1 = 0 := by omega
      simp only [State.endPhase, State.owed, hp, restOfBlock_silence hx.2, ← hv, restOfBlock_last hcfg .silence (Nat.not_lt.mp h1), hb1]
      rfl

/-- An accepted mark owes its whole stream (R100, R153). -/
theorem mark_owed {s : State} (hc : s.cfg.WellFormed) {d : Nat} (hd : 1 ≤ d) :
    (s.mark d).owed = markStream s.cfg (topUpUnits s) d := by
  have hU := hc.1
  have pos : ∀ n, 1 ≤ n → 1 ≤ unitBlocks s.cfg n := fun n hn => by unfold unitBlocks; exact Nat.mul_pos hn hU
  unfold State.mark State.owed markStream
  by_cases h : 0 < topUpUnits s
  · simp only [h, if_true]
    rw [blocks_of_pos s.cfg .silence (pos _ h)]
  · have h0 : topUpUnits s = 0 := by omega
    simp only [h0, lt_irrefl, if_false]
    rw [blocks_of_pos s.cfg .tone (pos _ hd)]
    simp [unitBlocks]

end Sys2Proof.Machine
end

