-- ==== Sys2Proof/Laws/Step.lean ====
section
/-! SUPPORT. What one step does in a legal state, by the phase and the port values, and how runs are put together. -/

namespace Sys2Proof.Machine

/-- The advance after a beat neither reads nor writes the coming inputs and the streams. -/
theorem advance_streams (s : State) (a : List Inputs) (b : List SymCode) (c : List Sample) :
    State.advance { s with inputs := a, accepted := b, taken := c } =
      { s.advance with inputs := a, accepted := b, taken := c } := by
  obtain ⟨cfg, phase, blkLeft, idx, toneUnits, need, seenMark, faultCause, faultInfo, i, ac, tk⟩ := s
  simp only [State.advance]
  split
  · rfl
  · split
    · rfl
    · cases phase <;> rfl

/-- What is owed after a taken beat, recorded in the stream. -/
theorem owed_taken (s : State) (v : Sample) : (s.nextInput.advance.recordTaken v).owed = s.advance.owed := by
  have : s.nextInput.advance = { s.advance with inputs := s.inputs.tail, accepted := s.accepted, taken := s.taken } :=
    advance_streams s s.inputs.tail s.accepted s.taken
  rw [this]; rfl

/-- Nothing is owed outside the busy phases. -/
theorem owed_nil_of_not_busy {s : State} (h : s.phase.isBusy = false) : s.owed = [] := by
  cases hp : s.phase <;> simp [hp, Phase.isBusy] at h <;> simp [State.owed, hp]

theorem runSteps_succ {k : Nat} {s t : State} (h : step s = .next t) : runSteps (k + 1) s = runSteps k t := by
  rw [runSteps, h]

theorem runSteps_add {j k : Nat} {s t : State} (h : runSteps j s = .next t) : runSteps (j + k) s = runSteps k t := by
  induction j generalizing s with
  | zero => simp only [runSteps] at h; injection h with h; rw [h, Nat.zero_add]
  | succ j ih =>
    rw [runSteps] at h
    rw [show j + 1 + k = (j + k) + 1 by omega, runSteps]
    cases hs : step s with
    | next u => rw [hs] at h; exact ih h
    | fault f => rw [hs] at h; exact absurd h (by simp)
    | refused r => rw [hs] at h; exact absurd h (by simp)

/-- A step without reset in a legal state: the channel's event, or a wait. -/
theorem step_of_legal {s : State} (hl : s.Legal) (hi : s.input.rst = false) :
    ∃ v, s.snkData = .ok v ∧ step s = match channelEvent s.phase v s.input with
      | none => .next s.nextInput
      | some e => perform e s.nextInput := by
  obtain ⟨v, hv⟩ := snkData_ok hl.config hl.consistent
  exact ⟨v, hv, step_of_consistent hl.config hi hv hl.cause hl.consistent⟩

/-- Waiting for a symbol, stopped in a fault, or stalled by the sink: only the input values are used up. -/
theorem step_quiet {s : State} (hl : s.Legal) (hi : s.input.rst = false)
    (h : (s.phase = .idle ∧ s.input.symValid = false) ∨ s.phase = .fault ∨
      (s.phase.isBusy = true ∧ s.input.snkErr = false ∧ s.input.snkReady = false)) :
    step s = .next s.nextInput := by
  obtain ⟨v, -, he⟩ := step_of_legal hl hi
  rw [he]
  rcases h with ⟨h1, h2⟩ | h1 | ⟨h1, h2, h3⟩
  · simp [channelEvent, h1, h2]
  · simp [channelEvent, h1]
  · rw [channelEvent_of_busy h1]
    simp [sinkAnswer, h2, h3]

/-- An offered symbol is accepted in `IDLE`. -/
theorem step_accept {s : State} (hl : s.Legal) (hi : s.input.rst = false) (hp : s.phase = .idle)
    (hv : s.input.symValid = true) :
    step s = .next (acceptAction (decode s.input.symCode) (s.nextInput.recordAccepted s.input.symCode)) := by
  obtain ⟨v, -, he⟩ := step_of_legal hl hi
  rw [he]
  simp only [channelEvent, hp, hv, if_true, perform]
  exact exec_of_idle _ hp

/-- The sink takes the offered sample. -/
theorem step_take {s : State} (hl : s.Legal) (hi : s.input.Takes) (hb : s.phase.isBusy = true) {v : Sample}
    (hv : s.snkData = .ok v) : step s = .next (s.nextInput.advance.recordTaken v) := by
  obtain ⟨w, hw, he⟩ := step_of_legal hl hi.1
  rw [hv] at hw
  injection hw with hw
  subst hw
  rw [he, channelEvent_of_busy hb]
  simp [sinkAnswer, hi.2.1, hi.2.2, perform]

/-- The sink fails the offered sample. -/
theorem step_fail {s : State} (hl : s.Legal) (hi : s.input.rst = false) (hb : s.phase.isBusy = true)
    (he : s.input.snkErr = true) : step s = .next (s.nextInput.raiseFault causeSinkError 0#3) := by
  obtain ⟨w, -, h⟩ := step_of_legal hl hi
  rw [h, channelEvent_of_busy hb]
  simp [sinkAnswer, he, perform]

end Sys2Proof.Machine
end

