-- ==== Sys2Proof/Tests/Slice0.lean ====
section
/-! SUPPORT. Tests against the words and vectors of spec/ (95_test_vectors.md unless a test says otherwise), the smoke
tests of well-formedness, and the witnesses: for each statement with hypotheses, a state and operands that meet them. -/

namespace Sys2Proof.Tests

open Sys2Proof Sys2Proof.Machine

/-! ### States -/

/-- The reset state with these coming inputs. -/
def fresh (l : List Inputs) : State := { State.reset with inputs := l }

/-- `IDLE/need/1` in CFG-A, in the notation of 95_test_vectors.md. -/
def idle (need : Nat) (l : List Inputs) : State := { State.reset with need := need, seenMark := true, inputs := l }

/-- A state that owes output, in CFG-A, in the middle of a mark of `units` units. -/
def busy (p : Phase) (blkLeft idx units : Nat) (l : List Inputs) : State :=
  { State.reset with phase := p, blkLeft := blkLeft, idx := idx, toneUnits := units, seenMark := true, inputs := l }

/-- A faulted state with the given cause and information. -/
def faulted (cause : BitVec 2) (info : BitVec 3) (need : Nat) (l : List Inputs) : State :=
  { State.reset with phase := .fault, faultCause := cause, faultInfo := info, need := need, inputs := l }

/-- The next state, if there is one. -/
def nextOf : Host.Outcome State Fault Refusal → Option State
  | .next t => some t
  | .fault _ => none
  | .refused _ => none

/-- The control fields that 95_test_vectors.md writes: phase, need, seen_mark. -/
def shown (o : Host.Outcome State Fault Refusal) : Option (Phase × Nat × Bool) :=
  (nextOf o).map fun t => (t.phase, t.need, t.seenMark)

/-- The fault fields. -/
def faultOf (o : Host.Outcome State Fault Refusal) : Option (Phase × BitVec 2 × BitVec 3) :=
  (nextOf o).map fun t => (t.phase, t.faultCause, t.faultInfo)

theorem legal_fresh (l : List Inputs) : (fresh l).Legal := streams_legal (s := fresh []) (legal_of (by decide)) l [] []
theorem legal_idle1 (l : List Inputs) : (idle 1 l).Legal := streams_legal (s := idle 1 []) (legal_of (by decide)) l [] []
theorem legal_idle7 (l : List Inputs) : (idle 7 l).Legal := streams_legal (s := idle 7 []) (legal_of (by decide)) l [] []
theorem legal_pre (l : List Inputs) : (busy .pre 6 0 3 l).Legal :=
  streams_legal (s := busy .pre 6 0 3 []) (legal_of (by decide)) l [] []
theorem legal_preEnd (l : List Inputs) : (busy .pre 1 3 3 l).Legal :=
  streams_legal (s := busy .pre 1 3 3 []) (legal_of (by decide)) l [] []
theorem legal_tone (l : List Inputs) : (busy .tone 3 3 3 l).Legal :=
  streams_legal (s := busy .tone 3 3 3 []) (legal_of (by decide)) l [] []
theorem legal_toneEnd (l : List Inputs) : (busy .tone 1 3 1 l).Legal :=
  streams_legal (s := busy .tone 1 3 1 []) (legal_of (by decide)) l [] []
theorem legal_post (l : List Inputs) : (busy .post 1 3 1 l).Legal :=
  streams_legal (s := busy .post 1 3 1 []) (legal_of (by decide)) l [] []
theorem legal_faulted (l : List Inputs) : (faulted 1#2 5#3 3 l).Legal :=
  streams_legal (s := faulted 1#2 5#3 3 []) (legal_of (by decide)) l [] []
theorem legal_faulted7 (l : List Inputs) : (faulted 1#2 5#3 7 l).Legal :=
  streams_legal (s := faulted 1#2 5#3 7 []) (legal_of (by decide)) l [] []

/-! ### Well-formedness (R7, Z4) -/

theorem test_cfgA_wellFormed : Config.cfgA.WellFormed := by decide
theorem test_cfgB_wellFormed : Config.cfgB.WellFormed := by decide
theorem test_zero_unit_refused : ¬ Config.WellFormed { Config.cfgA with U := 0 } := by decide
theorem test_empty_cycle_refused : ¬ Config.WellFormed { Config.cfgA with nC := 0, toneLut := [] } := by decide
theorem test_negative_amplitude_refused : ¬ Config.WellFormed { Config.cfgA with A := -1 } := by decide
theorem test_large_amplitude_refused : ¬ Config.WellFormed { Config.cfgA with A := 32768 } := by decide
theorem test_short_table_refused : ¬ Config.WellFormed { Config.cfgA with toneLut := [0, 16384, 0] } := by decide
theorem test_entry_above_int16_refused : ¬ Config.WellFormed { Config.cfgA with toneLut := [0, 32768, 0, 0] } := by decide
theorem test_entry_below_int16_refused : ¬ Config.WellFormed { Config.cfgA with toneLut := [0, -32769, 0, 0] } := by decide
/-- Z4: a configuration with `U = 0` is given no step. -/
theorem test_Z4_no_step : step { State.reset with cfg := { Config.cfgA with U := 0 } } = .refused .illFormedConfig := rfl
theorem test_instr_wellFormed : ∀ i ∈ [Instr.dot, .dash, .lsep, .wgap, .eol, .reserved5, .reserved6, .reserved7],
    i.wellFormed = true := by decide

/-! ### Decoding: the words of R71, written out -/

theorem test_decode_dot : decodeTableWord 8 0b000 = some .dot := rfl
theorem test_decode_dash : decodeTableWord 8 0b001 = some .dash := rfl
theorem test_decode_lsep : decodeTableWord 8 0b010 = some .lsep := rfl
theorem test_decode_wgap : decodeTableWord 8 0b011 = some .wgap := rfl
theorem test_decode_eol : decodeTableWord 8 0b100 = some .eol := rfl
theorem test_decode_reserved5 : decodeTableWord 8 0b101 = some .reserved5 := rfl
theorem test_decode_reserved6 : decodeTableWord 8 0b110 = some .reserved6 := rfl
theorem test_decode_reserved7 : decodeTableWord 8 0b111 = some .reserved7 := rfl
theorem test_decode_wider_word : decodeTableWord 8 0b1000 = none := rfl

/-! ### Single steps (M, L, W, E, F, Z) -/

/-- P1, step 1. -/
theorem test_P1_accept_dot :
    (nextOf (step (State.reset.withFetchWord 8 0b000))).map
      (fun t => (t.phase, t.blkLeft, t.idx, t.toneUnits, t.need, t.seenMark)) = some (.tone, 1, 0, 1, 1, true) := by
  decide

/-- M4: the state right after `Accept(001)` in IDLE/3/1. -/
theorem test_M4_accept_dash :
    (nextOf (step (idle 3 [Inputs.offer 0b001#3]))).map
      (fun t => (t.phase, t.blkLeft, t.idx, t.toneUnits, t.need, t.seenMark)) = some (.pre, 2, 0, 3, 1, true) := by
  decide

/-- M5: `6U` silence blocks come first when `need = 7`. -/
theorem test_M5_accept_dot :
    (nextOf (step (idle 7 [Inputs.offer 0b000#3]))).map (fun t => (t.phase, t.blkLeft)) = some (.pre, 6) := by decide

/-- M6: no leading silence, whatever `need` is. -/
theorem test_M6_leading_space :
    (nextOf (step { fresh [Inputs.offer 0b000#3] with need := 7 })).map (fun t => (t.phase, t.blkLeft)) =
      some (.tone, 1) := by decide

/-- M8: CFG-B, IDLE/3/1: four blocks of top-up. -/
theorem test_M8_accept_dash :
    (nextOf (step { idle 3 [Inputs.offer 0b001#3] with cfg := Config.cfgB })).map (fun t => (t.phase, t.blkLeft)) =
      some (.pre, 4) := by decide

/-- M4, "after 8 beats": the last PRE beat leads to TONE with `blk_left = 3`. -/
theorem test_M4_pre_to_tone :
    (nextOf (step (busy .pre 1 3 3 [Inputs.take]))).map (fun t => (t.phase, t.blkLeft, t.idx, t.taken)) =
      some (.tone, 3, 0, [0x0000#16]) := by decide

/-- M4, "after 12 more": the last TONE beat, `0xC000`, leads to POST with `blk_left = 1`. -/
theorem test_M4_tone_to_post :
    (nextOf (step (busy .tone 1 3 3 [Inputs.take]))).map (fun t => (t.phase, t.blkLeft, t.idx, t.taken)) =
      some (.post, 1, 0, [0xC000#16]) := by decide

/-- M4, "after 4 more": the last POST beat leads to IDLE. -/
theorem test_M4_post_to_idle :
    (nextOf (step (busy .post 1 3 3 [Inputs.take]))).map (fun t => (t.phase, t.blkLeft, t.idx, t.taken)) =
      some (.idle, 0, 0, [0x0000#16]) := by decide

theorem test_L1 : shown (step (idle 1 [Inputs.offer 0b010#3])) = some (.idle, 3, true) := by decide
theorem test_L3 : shown (step (idle 7 [Inputs.offer 0b010#3])) = some (.idle, 7, true) := by decide
theorem test_W2 : shown (step (idle 3 [Inputs.offer 0b011#3])) = some (.idle, 7, true) := by decide
theorem test_W3 : shown (step (idle 7 [Inputs.offer 0b011#3])) = some (.idle, 7, true) := by decide
theorem test_E1 : shown (step (idle 7 [Inputs.offer 0b100#3])) = some (.idle, 1, false) := by decide
theorem test_E2 : shown (step (fresh [Inputs.offer 0b100#3])) = some (.idle, 1, false) := by decide
theorem test_F1 : faultOf (step (fresh [Inputs.offer 0b101#3])) = some (.fault, 0b01#2, 0b101#3) := by decide

/-- F2: the code is recorded, and `need` and `seen_mark` remain. -/
theorem test_F2 : faultOf (step (idle 3 [Inputs.offer 0b110#3])) = some (.fault, 0b01#2, 0b110#3) ∧
    shown (step (idle 3 [Inputs.offer 0b110#3])) = some (.fault, 3, true) := by decide

theorem test_F3_accept : faultOf (step (fresh [Inputs.offer 0b111#3])) = some (.fault, 0b01#2, 0b111#3) := by decide

/-- F3: in `FAULT` the offered `.` is never accepted. -/
theorem test_F3_closed :
    (nextOf (step (faulted 0b01#2 0b111#3 1 [Inputs.offer 0b000#3]))).map (fun t => (t.phase, t.accepted)) =
      some (.fault, []) := by decide

/-- F4: the 6th beat of a dash fails; the fifth was the 2nd block's first. -/
theorem test_F4 : faultOf (step (busy .tone 2 1 3 [Inputs.fail])) = some (.fault, 0b10#2, 0b000#3) ∧
    (nextOf (step (busy .tone 2 1 3 [Inputs.fail]))).map (fun t => (t.blkLeft, t.idx, t.taken)) = some (2, 1, []) := by
  decide

/-- F5: `snk_ready` and `snk_err` together are a failure, and the beat is not counted. -/
theorem test_F5 : faultOf (step (busy .post 1 0 1 [{ Inputs.fail with snkReady := true }])) =
    some (.fault, 0b10#2, 0b000#3) := by decide

/-- F6: the first fault is kept. -/
theorem test_F6 : faultOf (step (faulted 0b10#2 0b000#3 1 [{ Inputs.fail with symValid := true, symCode := 5#3 }])) =
    some (.fault, 0b10#2, 0b000#3) := by decide

/-- F7: `snk_err` is ignored while no beat is offered. -/
theorem test_F7 : shown (step (fresh [Inputs.fail])) = some (.idle, 1, false) := by decide

/-- Y12: a stalled beat stays offered. -/
theorem test_Y12 : (busy .tone 1 1 1 []).snkData = .ok 0x4000#16 ∧
    (nextOf (step (busy .tone 1 1 1 []))) = some (busy .tone 1 1 1 []) := ⟨rfl, by decide⟩

/-- Z1: reset part-way through a dot. -/
theorem test_Z1 : nextOf (step (busy .tone 1 2 1 [Inputs.reset])) = some State.reset := by decide

/-- Z2: reset leaves `FAULT`. -/
theorem test_Z2 : nextOf (step (faulted 0b01#2 0b101#3 1 [Inputs.reset])) = some State.reset := by decide

/-! ### The rendering: the block strings of Part 4, in units -/

/-- P2, "SOS". -/
theorem test_P2_blocks : (parseCompact ['.', '.', '.', '|', '-', '-', '-', '|', '.', '.', '.', '|', ';']).map
      (fun l => (renderRuns none (l.map decode)).filter fun r => r.2 != 0) =
    some ([(.tone, 1), (.silence, 1), (.tone, 1), (.silence, 1), (.tone, 1), (.silence, 1), (.silence, 2),
      (.tone, 3), (.silence, 1), (.tone, 3), (.silence, 1), (.tone, 3), (.silence, 1), (.silence, 2),
      (.tone, 1), (.silence, 1), (.tone, 1), (.silence, 1), (.tone, 1), (.silence, 1)]) := by decide

/-- P6, "E  E" with two spaces: the gap is 7 units, not 14. -/
theorem test_P6_blocks : (parseCompact ['.', '|', '_', '|', '_', '|', '.', '|', ';']).map
      (fun l => (renderRuns none (l.map decode)).filter fun r => r.2 != 0) =
    some [(.tone, 1), (.silence, 1), (.silence, 6), (.tone, 1), (.silence, 1)] := by decide

/-- P1: the bytes of "E". -/
theorem test_P1_bytes : bytesOf (renderStream Config.cfgA [.dot, .lsep, .eol]) =
    [0x00#8, 0x00#8, 0x00#8, 0x40#8, 0x00#8, 0x00#8, 0x00#8, 0xC0#8,
     0x00#8, 0x00#8, 0x00#8, 0x00#8, 0x00#8, 0x00#8, 0x00#8, 0x00#8] := by decide +kernel

/-- P8 in CFG-B: 2+2+4+6+2+12+6+2 blocks of 4 samples. -/
theorem test_P8_length : (renderStream Config.cfgB
    ([0b000#3, 0b010#3, 0b001#3, 0b010#3, 0b011#3, 0b010#3, 0b001#3, 0b010#3, 0b100#3].map decode)).length =
    36 * 4 := by decide +kernel

/-! ### Durations and rounding (Y) -/

/-- Y8. -/
theorem test_Y8 : roundHalfAway (5 / 2) = 3 ∧ roundHalfAway (-5 / 2) = -3 ∧ roundHalfAway (4999 / 10000) = 0 := by
  decide +kernel

/-- Y9, and 0.84 s. -/
theorem test_Y9 : unitBlocks { Config.cfgA with U := 54, nC := 98 } 7 = 378 ∧
    unitSamples { Config.cfgA with U := 54, nC := 98 } 7 = 37044 ∧
    unitBytes { Config.cfgA with U := 54, nC := 98 } 7 = 74088 ∧
    unitSeconds { Config.cfgA with U := 54, nC := 98 } 7 = 84 / 100 := by decide +kernel

/-- Y10. -/
theorem test_Y10 : toneFrequency { Config.cfgA with nC := 98 } = 450 := by decide +kernel

/-- Y11: at most 324 in `blk_left`, so 9 bits. -/
theorem test_Y11 : blkLeftBits { Config.cfgA with U := 54 } = 9 := by decide +kernel

/-! ### The host's encoder (H, with the default table and no punctuation) -/

/-- H1 and H2. -/
theorem test_H1_H2 : (CodeTable.international []).sendLine ['E'] = [.dot, .lsep, .eol] ∧
    (CodeTable.international []).sendLine ['e'] = [.dot, .lsep, .eol] := by decide

/-- H3 and H4. -/
theorem test_H3_H4 : (CodeTable.international []).sendLine [' '] = [.wgap, .lsep, .eol] ∧
    (CodeTable.international []).sendLine ['~'] = [.eol] := by decide

/-- H5: the `~` is dropped. -/
theorem test_H5 : (CodeTable.international []).sendLine ['E', '~', 'E'] =
    [.dot, .lsep, .dot, .lsep, .eol] := by decide

/-- H6, against P2's encoding, and the compact form of R75. -/
theorem test_H6 : ((CodeTable.international []).expand (.line ['S', 'O', 'S'])).map encode =
    [0#3, 0#3, 0#3, 2#3, 1#3, 1#3, 1#3, 2#3, 0#3, 0#3, 0#3, 2#3, 4#3] := by decide

/-- R162: a table with a punctuation character is well-formed. -/
theorem test_table_accepted : (CodeTable.international [('?', [.dot, .dot, .dash, .dash, .dot, .dot])]).WellFormed :=
  ⟨.refl _, by decide, by decide, by decide⟩

/-- R162: a table without the letter A is ill-formed, and so is one that lists a letter twice. -/
theorem test_table_refused :
    ¬ CodeTable.WellFormed { codes := (morseLettersAtoM ++ morseLettersNtoZ ++ morseDigits).drop 1, punct := [] } ∧
    ¬ (CodeTable.international [('E', [.dash])]).WellFormed :=
  ⟨fun h => absurd h.1.length_eq (by decide), fun h => absurd h.2.1 (by decide)⟩

/-- R170: the display of "SOS" is `... --- ...`. -/
theorem test_display : (CodeTable.international []).encodeDisplay ['/'] ['S', 'O', 'S'] =
    ['.', '.', '.', ' ', '-', '-', '-', ' ', '.', '.', '.'] := by decide

/-- R75: white space is ignored, and raw codes can be written. -/
theorem test_compact : parseCompact ['.', ' ', '-', '#', '6'] = some [0#3, 1#3, 6#3] ∧
    assemble [['D', 'A', 'S', 'H'], ['.', 'w', 'o', 'r', 'd', ' ', '0', 'b', '1', '1', '1']] = some [1#3, 7#3] := by
  decide

/-! ### Witnesses: the hypotheses of each statement can be met -/

theorem witness_ResetWinsAndClearsTheLine : ∃ (s : State) (i : Inputs) (r : List Inputs), s.cfg.WellFormed ∧
    s.inputs = i :: r ∧ i.rst = true := ⟨busy .tone 1 2 1 [Inputs.reset], _, _, by decide, rfl, rfl⟩

theorem witness_ResetStateHoldsTheStatedValues : ∃ s : State, s.phase = .idle := ⟨fresh [], rfl⟩

theorem witness_ResetStatesAreLegalAndFaithful : ∃ c : Config, c.WellFormed := ⟨Config.cfgB, by decide⟩

theorem witness_DecodeAndEncodeAreInverse : ∃ v w : Nat, v = 7 ∧ v < 8 ∧ w = 8 ∧ 8 ≤ w := ⟨7, 8, by decide⟩

theorem witness_StepRunsTheDecodedSymbol : ∃ (s : State) (i : Inputs) (r : List Inputs), s.Legal ∧ s.phase = .idle ∧
    s.inputs = i :: r ∧ i.rst = false ∧ i.symValid = true :=
  ⟨fresh [Inputs.offer 7#3], _, _, legal_fresh _, rfl, rfl, rfl, rfl⟩

theorem witness_OfferedTableWordRunsNext : ∃ (s : State) (n w : Nat) (i : Instr), s.cfg.WellFormed ∧
    (s.need = 1 ∨ s.need = 3 ∨ s.need = 7) ∧ (s.toneUnits = 1 ∨ s.toneUnits = 3) ∧ decodeTableWord n w = some i :=
  ⟨faulted 1#2 5#3 7 [], 8, 7, .reserved7, by decide, by decide, by decide, rfl⟩

/-- Both cases of the top-up: `need` 3 with a mark in the line, and the first mark with `need` 7. -/
theorem witness_MarksSetUpTopUpOrTone : (∃ s : State, s.phase = .idle ∧ s.seenMark = true ∧ 1 < s.need) ∧
    (∃ s : State, s.phase = .idle ∧ ¬ (s.seenMark = true ∧ 1 < s.need)) :=
  ⟨⟨idle 3 [], rfl, rfl, by decide⟩, ⟨fresh [], rfl, by decide⟩⟩

theorem witness_LsepRaisesNeedToThree : (∃ s : State, s.phase = .idle ∧ s.need = 7) ∧
    (∃ s : State, s.phase = .idle ∧ s.seenMark = false) := ⟨⟨idle 7 [], rfl, rfl⟩, ⟨fresh [], rfl, rfl⟩⟩

theorem witness_WgapRaisesNeedToSeven : (∃ s : State, s.phase = .idle ∧ s.need ≤ 7) ∧
    (∃ s : State, s.phase = .idle ∧ s.seenMark = false) := ⟨⟨idle 7 [], rfl, by decide⟩, ⟨fresh [], rfl, rfl⟩⟩

theorem witness_EolStartsAFreshLine : (∃ s : State, s.phase = .idle) ∧ (∃ s : State, s.phase ≠ .idle) :=
  ⟨⟨idle 7 [], rfl⟩, ⟨busy .pre 6 0 3 [], by decide⟩⟩

theorem witness_ReservedCodesTakeTheIllegalSymbolFault :
    (∃ (s t : State) (i : Instr), s.phase = .idle ∧ (i = .reserved5 ∨ i = .reserved6 ∨ i = .reserved7) ∧
      exec i s = .next t) ∧
    (∃ (s : State) (i : Inputs) (l r : List Inputs), s.Legal ∧ s.phase = .idle ∧ s.inputs = i :: (l ++ r) ∧
      i.rst = false ∧ i.symValid = true ∧ (i.symCode = 0b101#3 ∨ i.symCode = 0b110#3 ∨ i.symCode = 0b111#3) ∧
      (∀ j ∈ l, j.rst = false) ∧ l ≠ []) :=
  ⟨⟨fresh [], _, .reserved7, rfl, by decide, rfl⟩,
   ⟨fresh [Inputs.offer 6#3, Inputs.offer 0#3], _, [Inputs.offer 0#3], [], legal_fresh _, rfl, rfl, rfl, rfl, by decide,
    by decide, by decide⟩⟩

theorem witness_NoSymbolIsAcceptedOutsideIdle : ∃ s : State, s.phase ≠ .idle := ⟨busy .post 1 0 1 [], by decide⟩

theorem witness_MarksLeaveFaultsStreamsAndRomAlone : ∃ (i : Instr) (s t : State), (i = .dot ∨ i = .dash) ∧
    exec i s = .next t := ⟨.dash, idle 7 [], _, by decide, rfl⟩

theorem witness_SeparatorsAndEolChangeOnlyTheGapState : ∃ (i : Instr) (s t : State),
    (i = .lsep ∨ i = .wgap ∨ i = .eol) ∧ exec i s = .next t ∧ i ≠ .eol := ⟨.wgap, idle 1 [], _, by decide, rfl, by decide⟩

theorem witness_ReservedCodesChangeOnlyPhaseAndFaultRegisters : ∃ (i : Instr) (s t : State),
    (i = .reserved5 ∨ i = .reserved6 ∨ i = .reserved7) ∧ exec i s = .next t := ⟨.reserved6, idle 1 [], _, by decide, rfl⟩

/-- The common hypotheses of a taken beat. -/
theorem taken_beat {s : State} {v : Sample} (l : List Inputs) (hl : s.Legal) (hb : s.phase.isBusy = true)
    (hi : s.inputs = Inputs.take :: l) (hv : s.snkData = .ok v) :
    s.Legal ∧ s.phase.isBusy = true ∧ s.inputs = Inputs.take :: l ∧ Inputs.take.Takes ∧ s.snkData = .ok v :=
  ⟨hl, hb, hi, by decide, hv⟩

/-- One witness for each clause, at the last index of a block where there is one: the next sample, the next block, and
the end of each of the three phases. -/
theorem witness_TakenBeatAdvancesTheState :
    (∃ s : State, (s.Legal ∧ s.phase.isBusy = true ∧ s.inputs = Inputs.take :: [] ∧ Inputs.take.Takes ∧
      s.snkData = .ok 0#16) ∧ s.idx + 1 < s.cfg.nC) ∧
    (∃ s : State, (s.Legal ∧ s.phase.isBusy = true ∧ s.inputs = Inputs.take :: [] ∧ Inputs.take.Takes ∧
      s.snkData = .ok 0xC000#16) ∧ ¬ s.idx + 1 < s.cfg.nC ∧ 1 < s.blkLeft) ∧
    (∃ s : State, (s.Legal ∧ s.phase.isBusy = true ∧ s.inputs = Inputs.take :: [] ∧ Inputs.take.Takes ∧
      s.snkData = .ok 0#16) ∧ ¬ s.idx + 1 < s.cfg.nC ∧ ¬ 1 < s.blkLeft ∧ s.phase = .pre) ∧
    (∃ s : State, (s.Legal ∧ s.phase.isBusy = true ∧ s.inputs = Inputs.take :: [] ∧ Inputs.take.Takes ∧
      s.snkData = .ok 0xC000#16) ∧ ¬ s.idx + 1 < s.cfg.nC ∧ ¬ 1 < s.blkLeft ∧ s.phase = .tone) ∧
    (∃ s : State, (s.Legal ∧ s.phase.isBusy = true ∧ s.inputs = Inputs.take :: [] ∧ Inputs.take.Takes ∧
      s.snkData = .ok 0#16) ∧ ¬ s.idx + 1 < s.cfg.nC ∧ ¬ 1 < s.blkLeft ∧ s.phase = .post) :=
  ⟨⟨busy .pre 6 0 3 [Inputs.take], taken_beat [] (legal_pre _) rfl rfl rfl, by decide⟩,
   ⟨busy .tone 3 3 3 [Inputs.take], taken_beat [] (legal_tone _) rfl rfl rfl, by decide, by decide⟩,
   ⟨busy .pre 1 3 3 [Inputs.take], taken_beat [] (legal_preEnd _) rfl rfl rfl, by decide, by decide, rfl⟩,
   ⟨busy .tone 1 3 1 [Inputs.take], taken_beat [] (legal_toneEnd _) rfl rfl rfl, by decide, by decide, rfl⟩,
   ⟨busy .post 1 3 1 [Inputs.take], taken_beat [] (legal_post _) rfl rfl rfl, by decide, by decide, rfl⟩⟩

theorem witness_OfferedSampleIsTheLutEntryOrSilence : (∃ s : State, s.Legal ∧ s.phase = .tone) ∧
    (∃ s : State, s.Legal ∧ s.phase = .pre) ∧ (∃ s : State, s.Legal ∧ s.phase = .post) :=
  ⟨⟨_, legal_tone [], rfl⟩, ⟨_, legal_pre [], rfl⟩, ⟨_, legal_post [], rfl⟩⟩

theorem witness_OutputsFollowThePhase : (∃ s : State, s.Legal ∧ (s.phase = .pre ∨ s.phase = .post)) ∧
    (∃ s : State, s.Legal ∧ s.phase = .tone) := ⟨⟨_, legal_pre [], .inl rfl⟩, ⟨_, legal_tone [], rfl⟩⟩

theorem witness_BackPressureKeepsTheOfferedBeat : ∃ (s : State) (stall rest : List Inputs), s.Legal ∧
    s.phase.isBusy = true ∧ s.inputs = stall ++ rest ∧ stall.length = 1 ∧
    (∀ i ∈ stall, i.rst = false ∧ i.snkErr = false ∧ i.snkReady = false) :=
  ⟨busy .tone 3 3 3 [Inputs.offer 0#3, Inputs.take], [Inputs.offer 0#3], [Inputs.take], legal_tone _, rfl, rfl, rfl,
    by decide⟩

theorem witness_FailedBeatTakesSinkError : ∃ (s : State) (i : Inputs) (l r : List Inputs), s.Legal ∧
    s.phase.isBusy = true ∧ s.inputs = i :: (l ++ r) ∧ i.rst = false ∧ i.snkErr = true ∧ (∀ j ∈ l, j.rst = false) :=
  ⟨busy .post 1 3 1 [Inputs.fail, Inputs.take], _, [Inputs.take], [], legal_post _, rfl, rfl, rfl, rfl, by decide⟩

theorem witness_IdleWaitsAndIgnoresTheSink : ∃ (s : State) (wait rest : List Inputs), s.Legal ∧ s.phase = .idle ∧
    s.inputs = wait ++ rest ∧ wait.length = 1 ∧ (∀ i ∈ wait, i.rst = false ∧ i.symValid = false) :=
  ⟨fresh [Inputs.fail], [Inputs.fail], [], legal_fresh _, rfl, rfl, rfl, by decide⟩

theorem witness_FaultIsLeftByResetAlone : ∃ (s : State) (l rest : List Inputs) (i : Inputs) (r : List Inputs), s.Legal ∧
    s.phase = .fault ∧ s.inputs = l ++ rest ∧ (∀ j ∈ l, j.rst = false) ∧ rest = i :: r ∧ i.rst = true :=
  ⟨faulted 1#2 5#3 3 [Inputs.offer 0#3, Inputs.reset], [Inputs.offer 0#3], [Inputs.reset], _, _, legal_faulted _, rfl,
    rfl, by decide, rfl, rfl⟩

/-- The whole dot (8 takes in CFG-A) and a dot cut after 5 takes. -/
theorem witness_DotRendersOneUnitOfTone :
    (∃ (s : State) (i : Inputs) (takes rest : List Inputs), s.Legal ∧ s.phase = .idle ∧ s.inputs = i :: (takes ++ rest) ∧
      i.rst = false ∧ i.symValid = true ∧ i.symCode = 0b000#3 ∧ (∀ j ∈ takes, j.Takes) ∧
      takes.length = ((if s.seenMark then s.need - 1 else 0) + 2) * s.cfg.U * s.cfg.nC) ∧
    (∃ (s : State) (i : Inputs) (takes rest : List Inputs) (j : Inputs), s.Legal ∧ s.phase = .idle ∧
      s.inputs = i :: (takes ++ rest) ∧ i.rst = false ∧ i.symValid = true ∧ i.symCode = 0b000#3 ∧
      (∀ j ∈ takes, j.Takes) ∧ takes.length < ((if s.seenMark then s.need - 1 else 0) + 2) * s.cfg.U * s.cfg.nC ∧
      rest = [j] ∧ j.rst = false ∧ j.snkErr = true) :=
  ⟨⟨fresh (Inputs.offer 0#3 :: (List.replicate 8 Inputs.take ++ [])), _, List.replicate 8 Inputs.take, [],
      legal_fresh _, rfl, rfl, rfl, rfl, rfl, by decide, rfl⟩,
   ⟨fresh (Inputs.offer 0#3 :: (List.replicate 5 Inputs.take ++ [Inputs.fail])), _, List.replicate 5 Inputs.take,
      [Inputs.fail], _, legal_fresh _, rfl, rfl, rfl, rfl, rfl, by decide, by decide, rfl, rfl, rfl⟩⟩

/-- M2's dash (16 takes in CFG-A) and F4's, cut after 5 takes. -/
theorem witness_DashRendersThreeUnitsOfTone :
    (∃ (s : State) (i : Inputs) (takes rest : List Inputs), s.Legal ∧ s.phase = .idle ∧ s.inputs = i :: (takes ++ rest) ∧
      i.rst = false ∧ i.symValid = true ∧ i.symCode = 0b001#3 ∧ (∀ j ∈ takes, j.Takes) ∧
      takes.length = ((if s.seenMark then s.need - 1 else 0) + 4) * s.cfg.U * s.cfg.nC) ∧
    (∃ (s : State) (i : Inputs) (takes rest : List Inputs) (j : Inputs), s.Legal ∧ s.phase = .idle ∧
      s.inputs = i :: (takes ++ rest) ∧ i.rst = false ∧ i.symValid = true ∧ i.symCode = 0b001#3 ∧
      (∀ j ∈ takes, j.Takes) ∧ takes.length < ((if s.seenMark then s.need - 1 else 0) + 4) * s.cfg.U * s.cfg.nC ∧
      rest = [j] ∧ j.rst = false ∧ j.snkErr = true) :=
  ⟨⟨fresh (Inputs.offer 1#3 :: (List.replicate 16 Inputs.take ++ [])), _, List.replicate 16 Inputs.take, [],
      legal_fresh _, rfl, rfl, rfl, rfl, rfl, by decide, rfl⟩,
   ⟨fresh (Inputs.offer 1#3 :: (List.replicate 5 Inputs.take ++ [Inputs.fail])), _, List.replicate 5 Inputs.take,
      [Inputs.fail], _, legal_fresh _, rfl, rfl, rfl, rfl, rfl, by decide, by decide, rfl, rfl, rfl⟩⟩

/-- The hypotheses on the separators and the mark hold together in CFG-A, whichever these are. -/
theorem gap_input (seps : List Instr) (m : Instr) (hs : ∀ x ∈ seps, x.isSeparator = true) (hm : m.isMark = true) :
    ∃ (s : State) (takes rest : List Inputs), s.Legal ∧ s.phase = .idle ∧ s.seenMark = true ∧ s.need = 1 ∧
    (∀ x ∈ seps, x.isSeparator = true) ∧ m.isMark = true ∧ s.inputs = offers (seps ++ [m]) ++ (takes ++ rest) ∧
    (∀ j ∈ takes, j.Takes) ∧ takes.length = (gapUnits seps + markUnits m) * s.cfg.U * s.cfg.nC :=
  ⟨idle 1 (offers (seps ++ [m]) ++
      (List.replicate ((gapUnits seps + markUnits m) * Config.cfgA.U * Config.cfgA.nC) Inputs.take ++ [])), _, [],
    legal_idle1 _, rfl, rfl, rfl, hs, hm, rfl, fun j hj => by rw [List.eq_of_mem_replicate hj]; decide,
    List.length_replicate⟩

/-- One witness for each gap: 7 units with a `WGAP` among several separators, 3 with `LSEP`s only, 1 with none. -/
theorem witness_SeparatorsDecideTheGapBetweenMarks : ∀ seps ∈ [[Instr.lsep, .wgap, .lsep], [.lsep, .lsep], []],
    ∃ (s : State) (m : Instr) (takes rest : List Inputs), s.Legal ∧ s.phase = .idle ∧ s.seenMark = true ∧ s.need = 1 ∧
    (∀ x ∈ seps, x.isSeparator = true) ∧ m.isMark = true ∧ s.inputs = offers (seps ++ [m]) ++ (takes ++ rest) ∧
    (∀ j ∈ takes, j.Takes) ∧ takes.length = (gapUnits seps + markUnits m) * s.cfg.U * s.cfg.nC := by
  intro seps h
  have hs : ∀ l ∈ [[Instr.lsep, .wgap, .lsep], [.lsep, .lsep], []], ∀ x ∈ l, x.isSeparator = true := by decide
  obtain ⟨s, takes, rest, hyps⟩ := gap_input seps .dash (hs seps h) rfl
  exact ⟨s, .dash, takes, rest, hyps⟩

/-- The three gaps of the witness above are 7, 3 and 1 units. -/
theorem test_gap_units : [[Instr.lsep, .wgap, .lsep], [.lsep, .lsep], []].map gapUnits = [7, 3, 1] := by decide

theorem witness_NothingIsAddedBetweenLines : ∃ (s : State) (before after : List Instr) (m : Instr)
    (takes rest : List Inputs), s.Legal ∧ s.phase = .idle ∧ (∀ x ∈ before, x.isSeparator = true) ∧
    (∀ x ∈ after, x.isSeparator = true) ∧ m.isMark = true ∧
    s.inputs = offers (before ++ [.eol] ++ after ++ [m]) ++ (takes ++ rest) ∧ (∀ j ∈ takes, j.Takes) ∧
    takes.length = (markUnits m + 1) * s.cfg.U * s.cfg.nC :=
  ⟨idle 7 (offers ([.lsep] ++ [.eol] ++ [.wgap] ++ [.dot]) ++ (List.replicate 8 Inputs.take ++ [])), [.lsep], [.wgap],
    .dot, List.replicate 8 Inputs.take, [], legal_idle7 _, rfl, by decide, by decide, rfl, rfl, by decide, rfl⟩

theorem witness_NoSilenceBeforeTheFirstMark :
    (∃ (s : State) (seps : List Instr) (m : Instr) (rest : List Inputs), s.Legal ∧ s.phase = .idle ∧
      s.seenMark = false ∧ (∀ x ∈ seps, x.isSeparator = true) ∧ m.isMark = true ∧
      s.inputs = offers (seps ++ [m]) ++ rest) ∧
    (∃ (s : State) (line : List Instr) (rest : List Inputs), s.Legal ∧ s.phase = .idle ∧
      (∀ x ∈ line, x.isSeparator = true ∨ x = .eol) ∧ s.inputs = offers line ++ rest) :=
  ⟨⟨fresh (offers ([.wgap, .lsep] ++ [.dot]) ++ []), [.wgap, .lsep], .dot, [], legal_fresh _, rfl, rfl, by decide, rfl,
      rfl⟩,
   ⟨fresh (offers [.wgap, .lsep, .eol] ++ []), [.wgap, .lsep, .eol], [], legal_fresh _, rfl, by decide, rfl⟩⟩

/-- Ten takes with a stall among them: all that is owed. -/
theorem witness_StallsDoNotChangeTheStream : ∃ (s : State) (l rest : List Inputs), s.Legal ∧ s.inputs = l ++ rest ∧
    (∀ i ∈ l, i.Calm) ∧ l.countP (fun i => i.snkReady) ≤ s.owed.length ∧ l.countP (fun i => i.snkReady) = 5 :=
  ⟨busy .tone 1 3 1 ([Inputs.take, Inputs.quiet] ++ List.replicate 4 Inputs.take ++ []),
    [Inputs.take, Inputs.quiet] ++ List.replicate 4 Inputs.take, [], legal_toneEnd _, rfl, by decide, by decide, rfl⟩

theorem witness_HeldSymbolIsAcceptedOnceAfterTheLastBeat : ∃ (s : State) (c : SymCode) (takes : List Inputs) (j : Inputs)
    (rest : List Inputs), s.Legal ∧ s.phase.isBusy = true ∧ s.inputs = takes ++ j :: rest ∧
    (∀ i ∈ takes, i.Takes ∧ i.symValid = true ∧ i.symCode = c) ∧ takes.length = s.owed.length ∧ j.rst = false ∧
    j.symValid = true ∧ j.symCode = c :=
  ⟨busy .post 1 3 1 [{ Inputs.offer 1#3 with snkReady := true }, Inputs.offer 1#3], 1#3,
    [{ Inputs.offer 1#3 with snkReady := true }], Inputs.offer 1#3, [], legal_post _, rfl, rfl, by decide, rfl, rfl, rfl,
    rfl⟩

theorem witness_SinkFailureTruncatesTheStream : ∃ (s : State) (takes : List Inputs) (j : Inputs) (rest : List Inputs),
    s.Legal ∧ s.inputs = takes ++ j :: rest ∧ (∀ i ∈ takes, i.Takes) ∧ takes.length < s.owed.length ∧ j.rst = false ∧
    j.snkErr = true :=
  ⟨busy .tone 1 3 1 [Inputs.take, Inputs.fail], [Inputs.take], Inputs.fail, [], legal_toneEnd _, rfl, by decide,
    by decide, rfl, rfl⟩

theorem witness_EveryStepKeepsTheLegalStates : ∃ s t : State, s.Legal ∧ step s = .next t :=
  ⟨busy .tone 1 3 1 [Inputs.take], _, legal_toneEnd _, step_take (legal_toneEnd _) (by decide) rfl rfl⟩

theorem witness_LegalStatesAlwaysStep : ∃ s : State, s.Legal := ⟨_, legal_faulted []⟩

/-- A faithful state in the middle of a dot: one sample of it is out. -/
def midDot (l : List Inputs) : State := { busy .tone 1 1 1 l with accepted := [0#3], taken := [0#16] }

theorem legal_midDot (l : List Inputs) : (midDot l).Legal :=
  streams_legal (s := busy .tone 1 1 1 []) (legal_of (by decide)) l [0#3] [0#16]

theorem faithful_midDot (l : List Inputs) : (midDot l).Faithful where
  stream _ := rfl
  symbols _ c h := by
    have : c = 0#3 := by simpa [midDot] using h
    subst this
    rfl
  seen _ := rfl
  gap _ seps h := by
    have : positionAfter ((midDot l).accepted.map decode) = some [] := rfl
    rw [this] at h
    injection h with h
    subst h
    rfl
  truncated h := by cases h
  precise h := by cases h

theorem witness_StreamRendersTheAcceptedSymbols : ∃ s t : State, s.Legal ∧ s.Faithful ∧ s.input.rst = false ∧
    step s = .next t :=
  ⟨midDot [Inputs.take], _, legal_midDot _, faithful_midDot _, rfl, step_take (legal_midDot _) (by decide) rfl rfl⟩

theorem faithful_fresh (l : List Inputs) : (fresh l).Faithful where
  stream _ := rfl
  symbols _ := by intro c h; cases h
  seen _ := rfl
  gap _ seps h := by cases h
  truncated h := by cases h
  precise h := by cases h

theorem witness_AcceptedEolCompletesTheLine : (∃ s : State, s.Faithful ∧ s.IsEnd) ∧
    (∃ s t : State, s.Legal ∧ s.Faithful ∧ s.phase = .idle ∧ s.input.rst = false ∧ s.input.symValid = true ∧
      decode s.input.symCode = .eol ∧ step s = .next t) :=
  ⟨⟨fresh [Inputs.take], faithful_fresh _, by decide⟩,
   ⟨fresh [Inputs.offer 4#3], _, legal_fresh _, faithful_fresh _, rfl, rfl, rfl, rfl,
      step_accept (legal_fresh _) rfl rfl rfl⟩⟩

theorem witness_EachStepIsAtMostOneEvent : ∃ s t : State, step s = .next t :=
  ⟨fresh [Inputs.offer 5#3], _, step_accept (legal_fresh _) rfl rfl rfl⟩

theorem witness_NoRunChangesConfigurationOrRom : ∃ (k : Nat) (s t : State), k = 1 ∧ runSteps k s = .next t :=
  ⟨1, fresh [Inputs.offer 0#3], _, rfl, (runSteps_succ (step_accept (legal_fresh _) rfl rfl rfl)).trans rfl⟩

/-- All three writes of `fault_cause`: an illegal symbol, a sink error, a reset. -/
theorem witness_FaultCauseIsWrittenByFaultEntryAndResetOnly :
    (∃ s t : State, s.Legal ∧ step s = .next t ∧ t.faultCause ≠ s.faultCause ∧ s.phase = .idle) ∧
    (∃ s t : State, s.Legal ∧ step s = .next t ∧ t.faultCause ≠ s.faultCause ∧ s.phase.isBusy = true) ∧
    (∃ s t : State, s.Legal ∧ step s = .next t ∧ t.faultCause ≠ s.faultCause ∧ s.phase = .fault) :=
  ⟨⟨fresh [Inputs.offer 5#3], _, legal_fresh _, step_accept (legal_fresh _) rfl rfl rfl, by decide, rfl⟩,
   ⟨busy .post 1 3 1 [Inputs.fail], _, legal_post _, step_fail (legal_post _) rfl rfl rfl, by decide, rfl⟩,
   ⟨faulted 1#2 5#3 3 [Inputs.reset], _, legal_faulted _, step_reset (legal_faulted _).config rfl, by decide, rfl⟩⟩

theorem witness_OutputComesInWholeBlocks : ∃ s t : State, s.Legal ∧ s.input.rst = false ∧ step s = .next t ∧
    t.phase ≠ .fault ∧ s.taken.length % s.cfg.nC = s.idx :=
  ⟨midDot [Inputs.take], _, legal_midDot _, rfl, step_take (legal_midDot _) (by decide) rfl rfl, by decide, rfl⟩

theorem witness_HiddenFieldsOfAFaultCannotBeObserved : ∃ s t : State, s.Legal ∧ t.Legal ∧ s.phase = .fault ∧
    s.SameOutside t ∧ s ≠ t :=
  ⟨faulted 1#2 5#3 3 [], faulted 1#2 5#3 7 [], legal_faulted _, legal_faulted7 _, rfl, by decide, by decide⟩

/-- One ill-formed configuration for each clause, and a well-formed one. -/
theorem witness_IllFormedConfigurationsGetNoStep :
    (∃ s : State, s.cfg.U = 0) ∧ (∃ s : State, s.cfg.nC = 0) ∧ (∃ s : State, s.cfg.A < 0) ∧
    (∃ s : State, 32767 < s.cfg.A) ∧ (∃ s : State, s.cfg.toneLut.length ≠ s.cfg.nC) ∧
    (∃ s : State, ∃ v ∈ s.cfg.toneLut, v < -32768 ∨ 32767 < v) ∧
    (∃ s : State, 1 ≤ s.cfg.U ∧ 1 ≤ s.cfg.nC ∧ 0 ≤ s.cfg.A ∧ s.cfg.A ≤ 32767 ∧ s.cfg.toneLut.length = s.cfg.nC ∧
      ∀ v ∈ s.cfg.toneLut, -32768 ≤ v ∧ v ≤ 32767) :=
  ⟨⟨{ State.reset with cfg := { Config.cfgA with U := 0 } }, rfl⟩,
   ⟨{ State.reset with cfg := { Config.cfgA with nC := 0 } }, rfl⟩,
   ⟨{ State.reset with cfg := { Config.cfgA with A := -1 } }, by decide⟩,
   ⟨{ State.reset with cfg := { Config.cfgA with A := 32768 } }, by decide⟩,
   ⟨{ State.reset with cfg := { Config.cfgA with toneLut := [] } }, by decide⟩,
   ⟨{ State.reset with cfg := { Config.cfgA with toneLut := [32768, 0, 0, 0] } }, by decide⟩,
   ⟨State.reset, by decide⟩⟩

/-- The three kinds of unreachable state, the first at the boundary `idx = N_C`. -/
theorem witness_UnreachableStatesFaultByName :
    (∃ s : State, s.cfg.WellFormed ∧ s.input.rst = false ∧ s.phase = .tone ∧ s.cfg.nC ≤ s.idx ∧ s.idx = s.cfg.nC) ∧
    (∃ s : State, s.cfg.WellFormed ∧ s.input.rst = false ∧ (s.phase = .tone → s.idx < s.cfg.nC) ∧
      s.faultCause = 0b11#2) ∧
    (∃ s : State, s.cfg.WellFormed ∧ s.input.rst = false ∧ (s.phase = .tone → s.idx < s.cfg.nC) ∧
      s.faultCause ≠ 0b11#2 ∧ ¬ s.Consistent) :=
  ⟨⟨busy .tone 1 4 1 [], by decide, rfl, rfl, by decide, rfl⟩,
   ⟨faulted 3#2 0#3 1 [], by decide, rfl, by decide, rfl⟩,
   ⟨idle 5 [], by decide, rfl, by decide, by decide, by decide⟩⟩

/-- The last entry, the first index and byte past the end, and a state that reads the last entry. -/
theorem witness_LutReadsGiveEntriesAndLittleEndianBytes :
    (∃ (c : Config) (k m a : Nat), c.WellFormed ∧ k < c.nC ∧ k + 1 = c.nC ∧ c.nC ≤ m ∧ m = c.nC ∧ 2 * c.nC ≤ a ∧
      a = 2 * c.nC) ∧
    (∃ (c : Config) (s : State), c.WellFormed ∧ s.Legal ∧ s.cfg = c ∧ s.phase = .tone) :=
  ⟨⟨Config.cfgA, 3, 4, 8, by decide⟩, ⟨Config.cfgA, _, by decide, legal_tone [], rfl, rfl⟩⟩

theorem witness_RomCellsAreTheByteView : ∃ (c : Config) (a : Nat) (b : Byte), c.WellFormed ∧ (a, b) ∈ lutCells c :=
  ⟨Config.cfgA, 7, 0xC0#8, by decide, by decide⟩

theorem witness_SilenceBlockIsZeros : ∃ (c : Config) (k : Nat), c.WellFormed ∧ k < c.nC := ⟨Config.cfgA, 3, by decide⟩

theorem witness_ByteStreamIsLittleEndian : ∃ (l : List Sample) (k : Nat) (v : Sample), l[k]? = some v :=
  ⟨[0x4000#16], 0, 0x4000#16, rfl⟩

theorem witness_BlockCountsAreMultiplesOfTheUnit : ∃ s : State, s.Legal ∧ s.seenMark = true ∧ s.need = 7 :=
  ⟨_, legal_idle7 [], rfl, rfl⟩

theorem witness_DurationsConvertToBlocksSamplesBytes : ∃ c : Config, c.WellFormed := ⟨Config.cfgB, by decide⟩

/-- The largest `blk_left`, `6U`. -/
theorem witness_CountersFitTheirWidths : ∃ s : State, s.Legal ∧ s.blkLeft = 6 * s.cfg.U := ⟨_, legal_pre [], rfl⟩

/-- The all-zero table is the reference generator's for amplitude 0. -/
theorem reference_of_silence (n : Nat) : IsReferenceTable { U := 1, nC := n, A := 0, toneLut := List.replicate n 0 } := by
  intro k v h
  have hv : v = 0 := by
    have := List.mem_of_getElem? h
    exact List.eq_of_mem_replicate this
  subst hv
  simp [RoundsReferenceSine, RoundsHalfAway]

theorem witness_ReferenceTableStaysInRange : ∃ c : Config, c.WellFormed ∧ IsReferenceTable c ∧ ∃ v, v ∈ c.toneLut :=
  ⟨_, by decide, reference_of_silence 2, 0, by decide⟩

/-- A halfway value for the rounding, and a table with an entry 0 and a middle entry. -/
theorem witness_RoundingIsHalfAwayFromZero : RoundsHalfAway (1 / 2) 1 ∧
    ∃ (c : Config) (h : Nat) (v : Int), IsReferenceTable c ∧ c.toneLut[0]? = some v ∧ c.nC = 2 * h ∧ 0 < h ∧
      c.toneLut[h]? = some v :=
  ⟨by norm_num [RoundsHalfAway, abs_of_pos, abs_of_neg], _, 1, 0, reference_of_silence 2, rfl, rfl, by decide, rfl⟩

theorem witness_ReferenceTablesOfTheVectors : (∃ c : Config, c.WellFormed ∧ c.nC = 1 ∧ IsReferenceTable c) ∧
    (∃ c : Config, c.WellFormed ∧ c.nC = 2 ∧ IsReferenceTable c) :=
  ⟨⟨_, by decide, rfl, reference_of_silence 1⟩, ⟨_, by decide, rfl, reference_of_silence 2⟩⟩

/-- The first and the last lower-case letter, and a character that is none. -/
theorem witness_LookupIsCaseInsensitive : (97 ≤ 'a'.toNat ∧ 'a'.toNat ≤ 122) ∧ (97 ≤ 'z'.toNat ∧ 'z'.toNat ≤ 122) ∧
    ('A' ≠ ' ' ∧ ¬ (97 ≤ 'A'.toNat ∧ 'A'.toNat ≤ 122)) := by decide

theorem witness_UnsupportedCharactersAreDropped : ∃ (t : CodeTable) (c : Char), t.lookup c = none :=
  ⟨CodeTable.international [], '~', by decide⟩

/-- A table with a punctuation character; with it a letter, a digit, that character and the space are found, and another
is not. -/
theorem witness_SupportedCharactersHaveExactlyOneCode : ∃ t : CodeTable, t.WellFormed ∧
    (∀ c ∈ ['a', 'Z', '9', '?', ' '], (t.lookup c).isSome = true) ∧ t.lookup '@' = none :=
  ⟨CodeTable.international [('?', [.dot, .dot, .dash, .dash, .dot, .dot])], test_table_accepted, by simp; decide,
    by decide⟩

theorem witness_LinesOfTextNeverFault : ∃ (k : Nat) (s u : State), s.Legal ∧ s.phase ≠ .fault ∧
    (∀ i ∈ s.inputs, i.snkErr = false ∧ (i.symValid = true → (decode i.symCode).isLegal = true)) ∧ k = 1 ∧
    runSteps k s = .next u :=
  ⟨1, fresh (offers [.dot, .lsep, .eol]), _, legal_fresh _, by decide, by decide, rfl,
    (runSteps_succ (step_accept (legal_fresh _) rfl rfl rfl)).trans rfl⟩

end Sys2Proof.Tests
end

section
/-! PROOFS. The scope (00_scope.md): which configurations a step is refused in (R7). -/

namespace Sys2Proof

/-- The ways a configuration can break R7, one per clause. -/
theorem Config.not_wellFormed_iff (c : Config) :
    ¬ c.WellFormed ↔ c.U = 0 ∨ c.nC = 0 ∨ c.A < 0 ∨ 32767 < c.A ∨ c.toneLut.length ≠ c.nC ∨
      ∃ v ∈ c.toneLut, v < -32768 ∨ 32767 < v := by
  simp only [Config.WellFormed, Classical.not_and_iff_not_or_not, not_forall, not_le, Nat.lt_one_iff, exists_prop,
    or_assoc]

end Sys2Proof

namespace Sys2Proof.Machine

/-- An event is never refused: no arm of `exec` rejects its command, and the other events answer a next state. -/
theorem perform_ne_refused (e : Event) (s : State) (r : Refusal) : perform e s ≠ .refused r := by
  cases e with
  | accept c => simp [perform, exec_eq]
  | beat v => simp [perform]
  | sinkFail => simp [perform]
  | reset => simp [perform]

/-- Past the check of the configuration a step answers a next state or faults. -/
theorem stepEvent_ne_refused (s : State) (r : Refusal) : stepEvent s ≠ .refused r := by
  unfold stepEvent
  split
  · simp
  · simp
  · exact perform_ne_refused _ s.nextInput r

/-- A refusal tells exactly that the configuration breaks R7. -/
theorem step_refused_iff (s : State) (r : Refusal) :
    step s = .refused r ↔ ¬ s.cfg.WellFormed ∧ r = .illFormedConfig := by
  by_cases hc : s.cfg.WellFormed
  · rw [step_of_wellFormed hc]
    exact iff_of_false (stepEvent_ne_refused s r) fun h => h.1 hc
  · rw [step_of_illFormed hc, and_iff_right hc, Host.Outcome.refused.injEq, eq_comm]

/-- Settles O41: by clauses of R7, since a step is refused exactly when the configuration breaks one. -/
theorem illFormedConfigurationsGetNoStep : Obligations.IllFormedConfigurationsGetNoStep := by
  unfold Obligations.IllFormedConfigurationsGetNoStep
  refine ⟨fun s hill => ?_, fun s hU hN hA hA' hlen hent r hr => ?_⟩
  · exact step_of_illFormed ((Config.not_wellFormed_iff s.cfg).2 hill)
  · exact ((step_refused_iff s r).1 hr).1 ⟨hU, hN, ⟨hA, hA'⟩, hlen, hent⟩

end Sys2Proof.Machine
end

section
/-! PROOFS. The state (10_state.md): the configuration and the ROM, which no run changes (R20, R51); `fault_cause`, which
fault entry and reset write (R29); and the values after reset (R37). -/

namespace Sys2Proof.Machine

/-! ### The constant state -/

/-- No event writes the configuration, and with it the LUT (R20, R51). -/
theorem step_cfg {s t : State} (h : step s = .next t) : t.cfg = s.cfg := by
  obtain ⟨-, ⟨-, rfl⟩ | ⟨-, -, -, v, -, ⟨-, rfl⟩ | ⟨-, -, rfl⟩ | ⟨-, -, -, rfl⟩ | ⟨-, -, rfl⟩⟩⟩ := step_cases h
  · simp
  · simp
  · exact (acceptAction_keeps _ _).1
  · simp
  · simp

/-- What every step keeps holds at the end of every run that starts with it. -/
theorem runSteps_preserves {P : State → Prop} (hstep : ∀ s t, P s → step s = .next t → P t) {k : Nat} {s t : State}
    (hs : P s) (h : runSteps k s = .next t) : P t := by
  induction k generalizing s with
  | zero =>
    injection h with h
    exact h ▸ hs
  | succ k ih =>
    rw [runSteps] at h
    split at h
    · next u hu => exact ih (hstep s u hs hu) h
    · cases h
    · cases h

/-- A run of any length keeps the configuration. -/
theorem runSteps_cfg {k : Nat} {s t : State} (h : runSteps k s = .next t) : t.cfg = s.cfg :=
  runSteps_preserves (P := fun u => u.cfg = s.cfg) (fun _ _ hu hstep => (step_cfg hstep).trans hu) rfl h

/-- Settles O37: the LUT and the silence block are read from the configuration, which no step writes. -/
theorem noRunChangesConfigurationOrRom : Obligations.NoRunChangesConfigurationOrRom := by
  unfold Obligations.NoRunChangesConfigurationOrRom
  intro k s t h
  rw [runSteps_cfg h]
  exact ⟨rfl, fun _ => rfl, fun _ => rfl, rfl⟩

/-! ### The writers of `fault_cause` -/

/-- Each word is the one its command is encoded in (R71, R74). -/
theorem encode_decode (c : SymCode) : encode (decode c) = c := by
  revert c
  decide

/-- The acceptance action of a legal command leaves `fault_cause` alone (R100, R120 to R122). -/
theorem acceptAction_faultCause_of_isLegal {i : Instr} (hi : i.isLegal = true) (s : State) :
    (acceptAction i s).faultCause = s.faultCause := by
  cases i with
  | dot | dash | lsep | wgap | eol => rfl
  | reserved5 | reserved6 | reserved7 => cases hi

/-- A reserved code takes the `ILLEGAL_SYMBOL` fault with its own word recorded (R123, R202). -/
theorem acceptAction_of_not_isLegal {i : Instr} (hi : i.isLegal = false) (s : State) :
    acceptAction i s = s.raiseFault causeIllegalSymbol (encode i) := by
  cases i with
  | dot | dash | lsep | wgap | eol => cases hi
  | reserved5 | reserved6 | reserved7 => rfl

/-- While output is owed the block is not in `FAULT` (R35). -/
theorem Phase.ne_fault_of_isBusy {p : Phase} (h : p.isBusy = true) : p ≠ .fault := by
  rintro rfl
  cases h

/-- Settles O38: by what the step did. A wait, a legal command and a taken beat keep `fault_cause`, which leaves reset,
an accepted reserved code and a failed beat. -/
theorem faultCauseIsWrittenByFaultEntryAndResetOnly : Obligations.FaultCauseIsWrittenByFaultEntryAndResetOnly := by
  unfold Obligations.FaultCauseIsWrittenByFaultEntryAndResetOnly
  intro s t _ hstep hne
  obtain ⟨-, ⟨hrst, rfl⟩ | ⟨-, -, -, v, -, ⟨-, rfl⟩ | ⟨hp, hv, rfl⟩ | ⟨-, -, -, rfl⟩ | ⟨hb, herr, rfl⟩⟩⟩ :=
    step_cases hstep
  · exact .inl ⟨hrst, rfl⟩
  · exact absurd rfl hne
  · cases hi : (decode s.input.symCode).isLegal with
    | true => exact absurd (acceptAction_faultCause_of_isLegal hi _) hne
    | false =>
      rw [acceptAction_of_not_isLegal hi, encode_decode]
      exact .inr ⟨by simp [hp], rfl, .inl ⟨rfl, hp, hv, rfl, rfl⟩⟩
  · exact absurd (by simp) hne
  · exact .inr ⟨Phase.ne_fault_of_isBusy hb, rfl, .inr ⟨rfl, hb, herr, rfl⟩⟩

/-! ### The state after reset -/

/-- `MARK(d)` writes `tone_units` before anything reads it (R100). -/
theorem mark_of_toneUnits (d u : Nat) (s : State) : State.mark d { s with toneUnits := u } = s.mark d := rfl

/-- The outputs after reset: ready for a symbol, nothing offered, no fault (R36, R37). -/
theorem outputs_resetIn (c : Config) :
    (State.resetIn c).outputs =
      .ok { symReady := true, snkValid := false, snkData := bits16 0, busy := false, fault := false,
            faultCause := causeNone, faultInfo := 0#3 } := rfl

/-- Settles O2: the fields and the outputs are those of the reset table, and a mark overwrites `tone_units` unread. -/
theorem resetStateHoldsTheStatedValues : Obligations.ResetStateHoldsTheStatedValues := by
  unfold Obligations.ResetStateHoldsTheStatedValues
  refine ⟨fun c => ?_, fun s u hp => ?_⟩
  · exact ⟨rfl, rfl, rfl, rfl, rfl, rfl, rfl, rfl, rfl, _, outputs_resetIn c, rfl, rfl, rfl, rfl⟩
  · have hpu : State.phase { s with toneUnits := u } = .idle := hp
    rw [exec_of_idle _ hpu, exec_of_idle _ hpu, exec_of_idle _ hp, exec_of_idle _ hp]
    exact ⟨congrArg _ (mark_of_toneUnits 1 u s), congrArg _ (mark_of_toneUnits 3 u s)⟩

end Sys2Proof.Machine
end

section
/-! PROOFS. The memory (20_memory.md): the ROM read by entry and by byte (R52), and the silence block (R53). -/

namespace Sys2Proof.Machine

/-- The two's-complement pattern of an `int16` reads back as its value (R10). -/
theorem bits16_toInt {x : Int} (hlo : -32768 ≤ x) (hhi : x ≤ 32767) : (bits16 x).toInt = x :=
  BitVec.toInt_ofInt_eq_self (by decide) hlo (Int.lt_add_one_of_le hhi)

/-- The even byte of an entry is its low byte (R52). -/
theorem lutByte_even {c : Config} {k : Nat} {v : Int} (h : memRead c k = .ok v) :
    lutByte c (2 * k) = .ok (lowByte (bits16 v)) := by
  have hk : 2 * k / 2 = k := by omega
  simp [lutByte, hk, h]

/-- The odd byte of an entry is its high byte (R52). -/
theorem lutByte_odd {c : Config} {k : Nat} {v : Int} (h : memRead c k = .ok v) :
    lutByte c (2 * k + 1) = .ok (highByte (bits16 v)) := by
  have hk : (2 * k + 1) / 2 = k := by omega
  simp [lutByte, hk, h]

/-- A byte read faults as the read of its entry does (R52). -/
theorem lutByte_of_error {c : Config} {a : Nat} {f : Fault} (h : memRead c (a / 2) = .error f) :
    lutByte c a = .error f := by
  simp [lutByte, h]

/-- In `TONE` the offered sample is the entry read at `idx` (R141). -/
theorem snkData_of_tone {s : State} (hp : s.phase = .tone) {v : Int} (h : memRead s.cfg s.idx = .ok v) :
    s.snkData = .ok (bits16 v) := by
  simp [State.snkData, sampleOf, hp, h]

/-- Settles O43: an index below `N_C` has an entry and no other has, and a byte is read through its entry. -/
theorem lutReadsGiveEntriesAndLittleEndianBytes : Obligations.LutReadsGiveEntriesAndLittleEndianBytes := by
  unfold Obligations.LutReadsGiveEntriesAndLittleEndianBytes
  intro c hc
  refine ⟨fun k hk => ?_, fun k hk => memRead_of_ge hc hk, fun a ha => ?_, ?_⟩
  · obtain ⟨v, hentry, hread, hmem⟩ := memRead_of_lt hc hk
    obtain ⟨-, -, -, -, hint16⟩ := hc
    obtain ⟨hlo, hhi⟩ := hint16 v hmem
    exact ⟨v, hentry, hlo, hhi, hread, bits16_toInt hlo hhi, lutByte_even hread, lutByte_odd hread⟩
  · have hpast : c.nC ≤ a / 2 := by omega
    exact lutByte_of_error (memRead_of_ge hc hpast)
  · rintro s hl rfl hp
    obtain ⟨v, -, hread, -⟩ := memRead_of_lt hc hl.idxRange
    exact ⟨hl.idxRange, v, hread, snkData_of_tone hp hread⟩

/-- Settles O45: the silence block repeats `0x0000`, and every block, of tone or of silence, has `N_C` samples. -/
theorem silenceBlockIsZeros : Obligations.SilenceBlockIsZeros := by
  unfold Obligations.SilenceBlockIsZeros
  intro c hc
  have htone : (toneBlock c).length = c.nC := blockOf_length hc .tone
  have hsilence : (silenceBlock c).length = c.nC := blockOf_length hc .silence
  exact ⟨fun k hk => List.getElem?_replicate_of_lt hk, hsilence.trans htone.symm, hsilence⟩

end Sys2Proof.Machine
end

section
/-! PROOFS. The encoding (30_encoding.md): the opcode map, read word by word (R71). -/

namespace Sys2Proof.Machine

/-- Each command is the one its word decodes to (R71): with `encode_decode`, the two maps are inverse. -/
@[simp] theorem decode_encode (i : Instr) : decode (encode i) = i := by
  cases i with
  | dot | dash | lsep | wgap | eol | reserved5 | reserved6 | reserved7 => rfl

/-- Settles O4: the eight words of the opcode map are the words of the eight commands, and each decodes to its own. -/
theorem opcodeWordsDecodeByTheMap : Obligations.OpcodeWordsDecodeByTheMap := by
  unfold Obligations.OpcodeWordsDecodeByTheMap
  exact ⟨decode_encode .dot, decode_encode .dash, decode_encode .lsep, decode_encode .wgap, decode_encode .eol,
    decode_encode .reserved5, decode_encode .reserved6, decode_encode .reserved7⟩

end Sys2Proof.Machine
end

section
/-! PROOFS. The marks (40_marks.md): a run of takes delivers what is owed, sample by sample (R60, R142), and a failed beat
cuts it (R204); a mark accepted in `IDLE` owes its whole stream (R100 to R102). -/

namespace Sys2Proof.Machine

/-! ### Taking what is owed -/

/-- The end of a phase writes `phase` and `blk_left` only (R142). -/
theorem endPhase_frame (s : State) : ∃ p b, s.endPhase = { s with phase := p, blkLeft := b } := by
  unfold State.endPhase
  split <;> exact ⟨_, _, rfl⟩

/-- A taken beat writes `phase`, `blk_left` and `idx` only (R142). -/
theorem advance_frame (s : State) : ∃ p b k, s.advance = { s with phase := p, blkLeft := b, idx := k } := by
  obtain ⟨-, h⟩ | ⟨-, -, h⟩ | ⟨-, -, h⟩ := advance_cases s
  · exact ⟨_, _, _, h⟩
  · exact ⟨_, _, _, h⟩
  · obtain ⟨p, b, hend⟩ := endPhase_frame { s with idx := 0 }
    exact ⟨p, b, 0, h.trans hend⟩

/-- In a legal state output is owed exactly in the busy phases (R35). -/
theorem isBusy_iff_owed_ne_nil {s : State} (hl : s.Legal) : s.phase.isBusy = true ↔ s.owed ≠ [] := by
  refine ⟨fun hb => ?_, fun ho => ?_⟩
  · obtain ⟨v, hv⟩ := snkData_ok hl.config hl.consistent
    simp [owed_advance hl hb hv]
  · by_contra hb
    exact ho (owed_nil_of_not_busy (Bool.eq_false_of_not_eq_true hb))

/-- A legal state that owes nothing and has no fault is idle, with its counters at 0 (R38). -/
theorem idle_of_owed_nil {s : State} (hl : s.Legal) (ho : s.owed = []) (hf : s.faultCause = causeNone) :
    s.phase = .idle ∧ s.blkLeft = 0 ∧ s.idx = 0 := by
  obtain ⟨hidle, -, -, -, -, -, hcause⟩ := hl.consistent
  have hnb : ¬ s.phase.isBusy = true := fun hb => (isBusy_iff_owed_ne_nil hl).1 hb ho
  have hp : s.phase = .idle := by
    cases h : s.phase with
    | idle => rfl
    | fault => exact absurd h (hcause.1 hf)
    | pre | tone | post => exact absurd (by rw [h]; rfl) hnb
  exact ⟨hp, hidle hp⟩

/-- A taken beat delivers the next owed sample and leaves the rest owed (R60, R142). -/
theorem step_take_owed {s : State} {v : Sample} {l : List Sample} (hl : s.Legal) (hi : s.input.Takes)
    (ho : s.owed = v :: l) :
    ∃ p b k, let t : State := { s with phase := p, blkLeft := b, idx := k, inputs := s.inputs.tail,
                                       taken := s.taken ++ [v] }
      step s = .next t ∧ t.Legal ∧ t.owed = l := by
  have hb : s.phase.isBusy = true := (isBusy_iff_owed_ne_nil hl).2 (by simp [ho])
  obtain ⟨w, hw⟩ := snkData_ok hl.config hl.consistent
  obtain ⟨rfl, rfl⟩ : v = w ∧ l = s.advance.owed := List.cons.inj (ho.symm.trans (owed_advance hl hb hw))
  have hlegal : (s.nextInput.advance.recordTaken v).Legal :=
    streams_legal (advance_legal (s := s.nextInput) (streams_legal hl _ _ _) hb) _ _ _
  obtain ⟨p, b, k, ht⟩ := advance_frame s.nextInput
  have howed := owed_taken s v
  have hstep := step_take hl hi hb hw
  rw [ht] at hlegal howed hstep
  exact ⟨p, b, k, hstep, hlegal, howed⟩

/-- Takes deliver the samples owed, in order, and leave the rest owed (R60, R142). -/
theorem runSteps_takes {takes rest : List Inputs} (htakes : ∀ j ∈ takes, j.Takes) {s : State} (hl : s.Legal)
    (hin : s.inputs = takes ++ rest) (hlen : takes.length ≤ s.owed.length) :
    ∃ p b k, let t : State := { s with phase := p, blkLeft := b, idx := k, inputs := rest,
                                       taken := s.taken ++ s.owed.take takes.length }
      runSteps takes.length s = .next t ∧ t.Legal ∧ t.owed = s.owed.drop takes.length := by
  induction takes generalizing s with
  | nil =>
    obtain rfl : s.inputs = rest := hin
    exact ⟨s.phase, s.blkLeft, s.idx, by simpa [runSteps] using hl⟩
  | cons j takes ih =>
    obtain ⟨hj, htakes⟩ := List.forall_mem_cons.1 htakes
    obtain ⟨v, l, ho⟩ : ∃ v l, s.owed = v :: l := List.exists_cons_of_length_pos (by simp at hlen; omega)
    obtain ⟨p, b, k, hstep, hlegal, howed⟩ := step_take_owed hl (by simpa [State.input, hin] using hj) ho
    obtain ⟨p', b', k', hrun, hlegal', howed'⟩ := ih htakes hlegal (by simp [hin]) (by simpa [howed, ho] using hlen)
    refine ⟨p', b', k', ?_, ?_, ?_⟩
    · rw [List.length_cons, runSteps_succ hstep, hrun]
      simp [howed, ho]
    · simpa [howed, ho] using hlegal'
    · simpa [howed, ho] using howed'

/-- Takes of all that is owed bring a state without a fault to `IDLE` (R142). -/
theorem runSteps_takes_all {s : State} {takes rest : List Inputs} (hl : s.Legal) (hf : s.faultCause = causeNone)
    (hin : s.inputs = takes ++ rest) (htakes : ∀ j ∈ takes, j.Takes) (hlen : takes.length = s.owed.length) :
    runSteps takes.length s =
      .next { s with phase := .idle, blkLeft := 0, idx := 0, inputs := rest, taken := s.taken ++ s.owed } := by
  obtain ⟨p, b, k, hrun, hlegal, howed⟩ := runSteps_takes htakes hl hin hlen.le
  obtain ⟨rfl, rfl, rfl⟩ := idle_of_owed_nil hlegal (howed.trans (by simp [hlen])) hf
  rw [hrun, hlen, List.take_length]

/-- A beat that fails after some takes was not delivered, and takes the `SINK_ERROR` fault (R203, R204). -/
theorem runSteps_takes_fail {s : State} {takes : List Inputs} {j : Inputs} {rest : List Inputs} (hl : s.Legal)
    (hin : s.inputs = takes ++ j :: rest) (htakes : ∀ i ∈ takes, i.Takes) (hlen : takes.length < s.owed.length)
    (hrst : j.rst = false) (herr : j.snkErr = true) :
    ∃ t, runSteps (takes.length + 1) s = .next t ∧ t.phase = .fault ∧ t.faultCause = causeSinkError ∧
      t.faultInfo = 0#3 ∧ t.taken = s.taken ++ s.owed.take takes.length ∧ t.accepted = s.accepted := by
  obtain ⟨p, b, k, hrun, hlegal, howed⟩ := runSteps_takes htakes hl hin hlen.le
  have hstep := step_fail hlegal hrst ((isBusy_iff_owed_ne_nil hlegal).2 (by simpa [howed] using hlen)) herr
  exact ⟨_, (runSteps_add hrun).trans (runSteps_succ hstep), rfl, rfl, rfl, rfl, rfl⟩

/-! ### A mark from its word to its last beat -/

/-- A mark symbol's acceptance action is `MARK(d)`, `d` being its length in units (R101, R102). -/
theorem acceptAction_of_isMark {m : Instr} (hm : m.isMark = true) : acceptAction m = State.mark (markUnits m) := by
  cases m with
  | dot | dash => rfl
  | lsep | wgap | eol | reserved5 | reserved6 | reserved7 => cases hm

/-- A mark symbol is one or three units long (R21). -/
theorem markUnits_of_isMark {m : Instr} (hm : m.isMark = true) : markUnits m = 1 ∨ markUnits m = 3 := by
  cases m with
  | dot | dash => simp [markUnits]
  | lsep | wgap | eol | reserved5 | reserved6 | reserved7 => cases hm

/-- One unit is `U` blocks (R22). -/
theorem unitBlocks_one (c : Config) : unitBlocks c 1 = c.U := Nat.one_mul c.U

/-- The beats of a mark: the top-up, its tone, and one unit of silence (R144, R153). -/
theorem markStream_length {c : Config} (hc : c.WellFormed) (pre d : Nat) :
    (markStream c pre d).length = (pre + d + 1) * c.U * c.nC := by
  simp only [markStream, List.length_append, blocks_length hc, unitBlocks, igapBlocks, igapUnits]
  ring

/-- The state right after a mark's word is accepted: legal, and it owes the mark's whole stream (R100, R153). -/
theorem step_accept_mark {s : State} {m : Instr} {i : Inputs} {r : List Inputs} (hm : m.isMark = true) (hl : s.Legal)
    (hp : s.phase = .idle) (hin : s.inputs = i :: r) (hrst : i.rst = false) (hvalid : i.symValid = true)
    (hcode : i.symCode = encode m) :
    let t := (s.nextInput.recordAccepted (encode m)).mark (markUnits m)
    step s = .next t ∧ t.Legal ∧ t.owed = markStream s.cfg (topUpUnits s) (markUnits m) := by
  have hd := markUnits_of_isMark hm
  have hi : s.input = i := by simp [State.input, hin]
  have hlegal : (s.nextInput.recordAccepted (encode m)).Legal := streams_legal hl _ _ _
  refine ⟨?_, mark_legal hlegal hp hd, mark_owed hl.config (by omega)⟩
  rw [step_accept hl (hi ▸ hrst) hp (hi ▸ hvalid), hi, hcode, decode_encode, acceptAction_of_isMark hm]

section
variable {s : State} {m : Instr} {i : Inputs} {takes rest : List Inputs} (hm : m.isMark = true) (hl : s.Legal)
  (hp : s.phase = .idle) (hin : s.inputs = i :: (takes ++ rest)) (hrst : i.rst = false) (hvalid : i.symValid = true)
  (hcode : i.symCode = encode m) (htakes : ∀ j ∈ takes, j.Takes)
include hm hl hp hin hrst hvalid hcode htakes

/-- A mark whose beats are all taken: its stream is delivered and the block is idle again (R100, R142). -/
theorem runSteps_mark (hlen : takes.length = (markStream s.cfg (topUpUnits s) (markUnits m)).length) :
    runSteps (1 + takes.length) s =
      .next { s with toneUnits := markUnits m, seenMark := true, need := 1, inputs := rest,
                     accepted := s.accepted ++ [encode m],
                     taken := s.taken ++ markStream s.cfg (topUpUnits s) (markUnits m) } := by
  obtain ⟨hidle, -, -, -, -, -, hcause⟩ := hl.consistent
  obtain ⟨hb, hk⟩ := hidle hp
  obtain ⟨hstep, hlegal, howed⟩ := step_accept_mark hm hl hp hin hrst hvalid hcode
  have hnone : s.faultCause = causeNone := hcause.2 (by simp [hp])
  have hrun := runSteps_takes_all (rest := rest) hlegal hnone (by simp [hin]) htakes (by rw [howed, hlen])
  rw [Nat.add_comm, runSteps_succ hstep, hrun, howed]
  simp [State.mark, State.recordAccepted, State.nextInput, igapUnits, hp, hb, hk]

/-- A mark one of whose beats fails: `SINK_ERROR`, with exactly the beats before it delivered (R203, R204). -/
theorem runSteps_mark_fail {j : Inputs} {r : List Inputs} (hrest : rest = j :: r) (hjrst : j.rst = false)
    (herr : j.snkErr = true) (hlen : takes.length < (markStream s.cfg (topUpUnits s) (markUnits m)).length) :
    ∃ t, runSteps (1 + takes.length + 1) s = .next t ∧ t.phase = .fault ∧ t.faultCause = causeSinkError ∧
      t.faultInfo = 0#3 ∧
      t.taken = s.taken ++ (markStream s.cfg (topUpUnits s) (markUnits m)).take takes.length := by
  obtain ⟨hstep, hlegal, howed⟩ := step_accept_mark hm hl hp hin hrst hvalid hcode
  obtain ⟨t, hrun, hfault, hcause, hinfo, htaken, -⟩ :=
    runSteps_takes_fail (rest := r) hlegal (by simp [hin, hrest]) htakes (by rwa [howed]) hjrst herr
  refine ⟨t, ?_, hfault, hcause, hinfo, ?_⟩
  · rw [Nat.add_assoc, Nat.add_comm, runSteps_succ hstep, hrun]
  · rw [htaken, howed]; rfl

/-- A mark by the number of its beats: their count, all of them taken, and one of them failed (R101, R102, R204). -/
theorem mark_renders :
    let n := (topUpUnits s + markUnits m + 1) * s.cfg.U * s.cfg.nC
    let stream := markStream s.cfg (topUpUnits s) (markUnits m)
    stream.length = n ∧
    (takes.length = n →
      runSteps (1 + n) s =
        .next { s with toneUnits := markUnits m, seenMark := true, need := 1, inputs := rest,
                       accepted := s.accepted ++ [encode m], taken := s.taken ++ stream }) ∧
    (takes.length < n → ∀ (j : Inputs) (r : List Inputs), rest = j :: r → j.rst = false → j.snkErr = true →
      ∃ t, runSteps (1 + takes.length + 1) s = .next t ∧ t.phase = .fault ∧ t.faultCause = causeSinkError ∧
        t.faultInfo = 0#3 ∧ t.taken = s.taken ++ stream.take takes.length) := by
  intro n stream
  have hcount : stream.length = n := markStream_length hl.config _ _
  refine ⟨hcount, fun hn => ?_, fun hn j r hrest hjrst herr => ?_⟩
  · rw [← hn]
    exact runSteps_mark hm hl hp hin hrst hvalid hcode htakes (hn.trans hcount.symm)
  · exact runSteps_mark_fail hm hl hp hin hrst hvalid hcode htakes hrest hjrst herr (hn.trans_eq hcount.symm)

end

/-- Settles O24: the dot is the mark of one unit. -/
theorem dotRendersOneUnitOfTone : Obligations.DotRendersOneUnitOfTone := by
  unfold Obligations.DotRendersOneUnitOfTone
  refine ⟨decode_encode .dot, fun s i takes rest hl hp hin hrst hvalid hcode htakes => ⟨?_, ?_⟩⟩
  · rw [exec_of_idle _ hp, acceptAction, State.mark, unitBlocks_one]
    rfl
  · exact mark_renders (m := .dot) rfl hl hp hin hrst hvalid hcode htakes

/-- Settles O25: the dash is the mark of three units. -/
theorem dashRendersThreeUnitsOfTone : Obligations.DashRendersThreeUnitsOfTone := by
  unfold Obligations.DashRendersThreeUnitsOfTone
  refine ⟨decode_encode .dash, fun s i takes rest hl hp hin hrst hvalid hcode htakes => ⟨?_, ?_⟩⟩
  · exact exec_of_idle .dash hp
  · exact mark_renders (m := .dash) rfl hl hp hin hrst hvalid hcode htakes

end Sys2Proof.Machine
end

section
/-! PROOFS. The separators and framing (41_separators.md): what raising `need` and ending a line do to the commands that
follow (R120 to R122), the fault of a reserved code (R123), and lines before their first mark (R127). -/

namespace Sys2Proof.Machine

/-! ### The gap requirement -/

/-- Raising `need` to at least `n` twice is raising it once (R120, R121). -/
@[simp] theorem raiseNeed_raiseNeed (n : Nat) (s : State) : (s.raiseNeed n).raiseNeed n = s.raiseNeed n := by
  simp [State.raiseNeed]

/-- A requirement of at least `n` is not raised to `n` (R120, R121). -/
theorem raiseNeed_of_le {n : Nat} {s : State} (h : n ≤ s.need) : s.raiseNeed n = s := by
  simp [State.raiseNeed, Nat.max_eq_left h]

/-- The first mark of a line has no top-up (R100, R127). -/
theorem topUpUnits_of_first {s : State} (h : s.seenMark = false) : topUpUnits s = 0 := by
  simp [topUpUnits, h]

/-- The first mark of a line does not see what separators came before it (R127). -/
theorem mark_raiseNeed {s : State} (h : s.seenMark = false) (n d : Nat) : (s.raiseNeed n).mark d = s.mark d := by
  have htop : topUpUnits (s.raiseNeed n) = topUpUnits s := by
    rw [topUpUnits_of_first h, topUpUnits_of_first (s := s.raiseNeed n) h]
  simp only [State.mark, htop]
  rfl

/-- The end of a line discards what the separators before it asked for (R122). -/
theorem endLine_raiseNeed (n : Nat) (s : State) : (s.raiseNeed n).endLine = s.endLine := rfl

/-- A symbol that raises `need`, accepted in `IDLE`: a second one changes nothing, and neither the first mark of a line nor
its end depends on it (R120, R121). -/
theorem exec_raiseNeed {i : Instr} {n : Nat} (hi : acceptAction i = State.raiseNeed n) {s : State}
    (hp : s.phase = .idle) :
    let t := s.raiseNeed n
    exec i s = .next t ∧ exec i t = .next t ∧
      (s.seenMark = false → exec .dot t = exec .dot s ∧ exec .dash t = exec .dash s) ∧
      exec .eol t = exec .eol s := by
  intro t
  have hpt : t.phase = .idle := hp
  simp only [exec_of_idle _ hp, exec_of_idle _ hpt, hi]
  refine ⟨rfl, congrArg _ (raiseNeed_raiseNeed n s), fun hs => ⟨?_, ?_⟩, congrArg _ (endLine_raiseNeed n s)⟩
  · exact congrArg _ (mark_raiseNeed hs n 1)
  · exact congrArg _ (mark_raiseNeed hs n 3)

/-- Settles O9: `LSEP` raises `need` to at least 3. -/
theorem lsepRaisesNeedToThree : Obligations.LsepRaisesNeedToThree := by
  unfold Obligations.LsepRaisesNeedToThree
  refine ⟨decode_encode .lsep, fun s hp => ?_⟩
  obtain ⟨honce, htwice, hfirst, heol⟩ := exec_raiseNeed (i := .lsep) (n := 3) rfl hp
  exact ⟨honce, htwice, fun hneed => raiseNeed_of_le (by omega), hfirst, heol⟩

/-- Settles O10: `WGAP` raises `need` to at least 7. -/
theorem wgapRaisesNeedToSeven : Obligations.WgapRaisesNeedToSeven := by
  unfold Obligations.WgapRaisesNeedToSeven
  refine ⟨decode_encode .wgap, fun s hp => ?_⟩
  obtain ⟨honce, htwice, hfirst, heol⟩ := exec_raiseNeed (i := .wgap) (n := 7) rfl hp
  exact ⟨honce, htwice, Nat.max_eq_right, hfirst, heol⟩

/-! ### The end of a line -/

/-- A second end of line changes nothing (R122). -/
@[simp] theorem endLine_endLine (s : State) : s.endLine.endLine = s.endLine := rfl

/-- Nor does one right after reset (R37, R122). -/
@[simp] theorem endLine_resetIn (c : Config) : (State.resetIn c).endLine = State.resetIn c := rfl

/-- No symbol is accepted outside `IDLE` (R36). -/
theorem symReady_of_not_idle {s : State} (h : s.phase ≠ .idle) : s.symReady = false := by
  simp [State.symReady, h]

/-- Settles O11: `EOL` ends the line, which in `IDLE` owes nothing more. -/
theorem eolStartsAFreshLine : Obligations.EolStartsAFreshLine := by
  unfold Obligations.EolStartsAFreshLine
  refine ⟨decode_encode .eol, fun s hp => ⟨?_, ?_, ?_⟩, fun c => ?_, fun s => symReady_of_not_idle⟩
  · exact exec_of_idle .eol hp
  · exact (exec_of_idle .eol (s := s.endLine) hp).trans (congrArg _ (endLine_endLine s))
  · exact owed_nil_of_not_busy (by simp [hp, Phase.isBusy])
  · exact (exec_of_idle .eol (State.resetIn_phase c)).trans (congrArg _ (endLine_resetIn c))

/-! ### Steps that accept a symbol, and steps with no event -/

/-- A command offered in `IDLE` is recorded, its action runs, and the state after it is legal (R33, R74). -/
theorem step_accept_instr {s : State} {x : Instr} {i : Inputs} {r : List Inputs} (hl : s.Legal) (hp : s.phase = .idle)
    (hin : s.inputs = i :: r) (hrst : i.rst = false) (hvalid : i.symValid = true) (hcode : i.symCode = encode x) :
    let t := acceptAction x { s with inputs := r, accepted := s.accepted ++ [encode x] }
    step s = .next t ∧ t.Legal := by
  have hi : s.input = i := by simp [State.input, hin]
  refine ⟨?_, acceptAction_legal (streams_legal hl r (s.accepted ++ [encode x]) s.taken) hp x⟩
  rw [step_accept hl (hi ▸ hrst) hp (hi ▸ hvalid), hi, hcode, decode_encode]
  simp only [State.nextInput, State.recordAccepted, hin, List.tail_cons]

/-- In `FAULT` the steps without reset use up the port values and do nothing (R206). -/
theorem runSteps_fault {l r : List Inputs} (hrst : ∀ j ∈ l, j.rst = false) {s : State} (hl : s.Legal)
    (hp : s.phase = .fault) (hin : s.inputs = l ++ r) : runSteps l.length s = .next { s with inputs := r } := by
  induction l generalizing s with
  | nil =>
    obtain rfl : s.inputs = r := hin
    rfl
  | cons j l ih =>
    obtain ⟨hj, hrst⟩ := List.forall_mem_cons.1 hrst
    have hstep : step s = .next s.nextInput := step_quiet hl (by simpa [State.input, hin] using hj) (.inr (.inl hp))
    rw [List.length_cons, runSteps_succ hstep]
    exact ih hrst (streams_legal hl _ _ _) hp (by simp [hin])

/-! ### The reserved codes -/

/-- Both channels are closed in `FAULT` (R36). -/
theorem channels_closed_of_fault {s : State} (hp : s.phase = .fault) : s.symReady = false ∧ s.snkValid = false := by
  simp [State.symReady, State.snkValid, Phase.isBusy, hp]

/-- A reserved code accepted in `IDLE` is consumed and takes the fault, in which the block stays (R123, R206). -/
theorem runSteps_reserved {s : State} {x : Instr} {i : Inputs} {l r : List Inputs} (hx : x.isLegal = false)
    (hl : s.Legal) (hp : s.phase = .idle) (hin : s.inputs = i :: (l ++ r)) (hrst : i.rst = false) (hvalid : i.symValid = true)
    (hcode : i.symCode = encode x) (hlrst : ∀ j ∈ l, j.rst = false) :
    runSteps (1 + l.length) s =
      .next { s with phase := .fault, faultCause := causeIllegalSymbol, faultInfo := encode x, inputs := r,
                     accepted := s.accepted ++ [encode x] } := by
  obtain ⟨hstep, hlegal⟩ := step_accept_instr hl hp hin hrst hvalid hcode
  rw [acceptAction_of_not_isLegal hx] at hstep hlegal
  rw [Nat.add_comm, runSteps_succ hstep, runSteps_fault hlrst hlegal rfl rfl]
  rfl

/-- Settles O12: a reserved code raises the fault with its own word, and nothing happens in `FAULT` without reset. -/
theorem reservedCodesTakeTheIllegalSymbolFault : Obligations.ReservedCodesTakeTheIllegalSymbolFault := by
  unfold Obligations.ReservedCodesTakeTheIllegalSymbolFault
  refine ⟨decode_encode .reserved5, decode_encode .reserved6, decode_encode .reserved7, fun s hp => ?_,
    fun s t i hp hi hexec => ?_, fun s i l r hl hp hin hrst hvalid hcode hlrst => ?_⟩
  · exact ⟨exec_of_idle .reserved5 hp, exec_of_idle .reserved6 hp, exec_of_idle .reserved7 hp⟩
  · have hillegal : i.isLegal = false := by obtain rfl | rfl | rfl := hi <;> rfl
    rw [exec_of_idle i hp, acceptAction_of_not_isLegal hillegal] at hexec
    injection hexec with ht
    exact channels_closed_of_fault (ht ▸ rfl)
  · have hillegal : (decode i.symCode).isLegal = false := by obtain h | h | h := hcode <;> rw [h] <;> rfl
    have hrun := runSteps_reserved hillegal hl hp hin hrst hvalid (encode_decode _).symm hlrst
    rwa [encode_decode] at hrun

/-! ### Lines before their first mark -/

/-- A separator or `EOL` writes `need` and `seen_mark` only, and a line without a mark stays one (R120 to R122). -/
theorem acceptAction_of_separator_or_eol {x : Instr} (hx : x.isSeparator = true ∨ x = .eol) (s : State) :
    ∃ n b, acceptAction x s = { s with need := n, seenMark := b } ∧ (s.seenMark = false → b = false) := by
  obtain hx | rfl := hx
  · cases x with
    | lsep | wgap => exact ⟨_, _, rfl, id⟩
    | dot | dash | eol | reserved5 | reserved6 | reserved7 => cases hx
  · exact ⟨_, _, rfl, fun _ => rfl⟩

/-- Separators and `EOL`s offered in `IDLE` are accepted one a step and emit nothing (R127). -/
theorem runSteps_separators_and_eols {line : List Instr} {rest : List Inputs}
    (hline : ∀ x ∈ line, x.isSeparator = true ∨ x = .eol) {s : State} (hl : s.Legal) (hp : s.phase = .idle)
    (hin : s.inputs = offers line ++ rest) :
    ∃ n b, let t : State := { s with need := n, seenMark := b, inputs := rest,
                                     accepted := s.accepted ++ line.map encode }
      runSteps line.length s = .next t ∧ t.Legal ∧ (s.seenMark = false → b = false) := by
  induction line generalizing s with
  | nil =>
    obtain rfl : s.inputs = rest := hin
    exact ⟨s.need, s.seenMark, by simpa [runSteps] using hl⟩
  | cons x line ih =>
    obtain ⟨hx, hline⟩ := List.forall_mem_cons.1 hline
    obtain ⟨hstep, hlegal⟩ := step_accept_instr (x := x) (r := offers line ++ rest) hl hp hin rfl rfl rfl
    obtain ⟨n, b, hact, hb⟩ := acceptAction_of_separator_or_eol hx
      { s with inputs := offers line ++ rest, accepted := s.accepted ++ [encode x] }
    rw [hact] at hstep hlegal
    obtain ⟨n', b', hrun, hlegal', hb'⟩ := ih hline hlegal hp rfl
    refine ⟨n', b', ?_, streams_legal hlegal' _ _ _, fun hs => hb' (hb hs)⟩
    rw [List.length_cons, runSteps_succ hstep, hrun]
    simp

/-- Settles O28: the separators leave `seen_mark` at 0, so that the mark has no top-up. -/
theorem noSilenceBeforeTheFirstMark : Obligations.NoSilenceBeforeTheFirstMark := by
  unfold Obligations.NoSilenceBeforeTheFirstMark
  refine ⟨fun s seps m rest hl hp hseen hseps hm hin => ?_, fun s line rest hl hp hline hin => ?_⟩
  · obtain ⟨n, b, hrun, hlegal, hb⟩ := runSteps_separators_and_eols (rest := Inputs.offer (encode m) :: rest)
      (fun x hx => .inl (hseps x hx)) hl hp (by simpa [offers] using hin)
    obtain ⟨hstep, -, -⟩ := step_accept_mark hm hlegal hp rfl rfl rfl rfl
    refine ⟨_, (runSteps_add hrun).trans (runSteps_succ hstep), ?_, rfl, rfl⟩
    rw [State.mark_phase, topUpUnits_of_first (hb hseen)]
    rfl
  · obtain ⟨n, b, hrun, -, -⟩ := runSteps_separators_and_eols hline hl hp hin
    exact ⟨_, hrun, hp, rfl, rfl⟩

end Sys2Proof.Machine
end

section
/-! PROOFS. The synthesis (42_synthesis.md): the sample offered in each phase (R141), the advance when the sink takes it
(R142), and the stall while the sink gives no answer (R149). -/

namespace Sys2Proof.Machine

/-! ### The advance, case by case -/

/-- Inside a block the next sample follows (R142). -/
theorem advance_inside_block {s : State} (hidx : s.idx + 1 < s.cfg.nC) : s.advance = { s with idx := s.idx + 1 } :=
  if_pos hidx

/-- At the end of a block the next block follows while one is left (R142). -/
theorem advance_block_end {s : State} (hidx : ¬ s.idx + 1 < s.cfg.nC) (hblk : 1 < s.blkLeft) :
    s.advance = { s with idx := 0, blkLeft := s.blkLeft - 1 } :=
  (if_neg hidx).trans (if_pos hblk)

/-- At the end of its last block the phase ends (R142). -/
theorem advance_last_block_end {s : State} (hidx : ¬ s.idx + 1 < s.cfg.nC) (hblk : ¬ 1 < s.blkLeft) :
    s.advance = State.endPhase { s with idx := 0 } :=
  (if_neg hidx).trans (if_neg hblk)

/-- After the top-up comes the tone of the mark in progress (R142). -/
theorem endPhase_of_pre {s : State} (hp : s.phase = .pre) :
    s.endPhase = { s with phase := .tone, blkLeft := s.toneUnits * s.cfg.U } := by
  simp [State.endPhase, hp, unitBlocks]

/-- After the tone comes one unit of silence (R142). -/
theorem endPhase_of_tone {s : State} (hp : s.phase = .tone) :
    s.endPhase = { s with phase := .post, blkLeft := 1 * s.cfg.U } := by
  simp [State.endPhase, hp, unitBlocks, igapUnits]

/-- After the silence the mark is complete (R142). -/
theorem endPhase_of_post {s : State} (hp : s.phase = .post) : s.endPhase = { s with phase := .idle, blkLeft := 0 } := by
  simp [State.endPhase, hp]

/-! ### A taken beat -/

/-- A taken beat advances the state, uses up the port values and appends the sample to the stream (R34, R142). -/
theorem step_take_eq_advance {s : State} {v : Sample} {i : Inputs} {r : List Inputs} (hl : s.Legal)
    (hb : s.phase.isBusy = true) (hin : s.inputs = i :: r) (hi : i.Takes) (hv : s.snkData = .ok v) :
    step s = .next { s.advance with inputs := r, taken := s.taken ++ [v] } := by
  have hinput : s.input = i := by simp [State.input, hin]
  have hadvance : s.nextInput.advance = { s.advance with inputs := s.inputs.tail } := by
    simpa [State.nextInput] using advance_streams s s.inputs.tail s.accepted s.taken
  rw [step_take hl (hinput ▸ hi) hb hv, hadvance, hin]
  simp [State.recordTaken]

/-- Settles O17: the step is the advance, and each clause is one of its cases. -/
theorem takenBeatAdvancesTheState : Obligations.TakenBeatAdvancesTheState := by
  unfold Obligations.TakenBeatAdvancesTheState
  intro s v i r hl hb hin hi hv
  have hstep := step_take_eq_advance hl hb hin hi hv
  refine ⟨fun hidx => ?_, fun hidx hblk => ?_, fun hidx hblk => ?_⟩
  · rw [hstep, advance_inside_block hidx]
  · rw [hstep, advance_block_end hidx hblk]
  · have hend := advance_last_block_end hidx hblk
    refine ⟨fun hp => ?_, fun hp => ?_, fun hp => ?_⟩
    · rw [hstep, hend.trans (endPhase_of_pre hp)]
    · rw [hstep, hend.trans (endPhase_of_tone hp)]
    · rw [hstep, hend.trans (endPhase_of_post hp)]

/-! ### A stalled beat -/

/-- Steps without an event, while the block waits, is stalled or is stopped, use up the port values and change nothing
else (R149, R206, R212). -/
theorem runSteps_quiet {l r : List Inputs} {s : State} (hl : s.Legal) (hin : s.inputs = l ++ r)
    (hquiet : ∀ j ∈ l, j.rst = false ∧ ((s.phase = .idle ∧ j.symValid = false) ∨ s.phase = .fault ∨
      (s.phase.isBusy = true ∧ j.snkErr = false ∧ j.snkReady = false))) :
    runSteps l.length s = .next { s with inputs := r } := by
  induction l generalizing s with
  | nil =>
    obtain rfl : s.inputs = r := hin
    rfl
  | cons j l ih =>
    obtain ⟨⟨hrst, hj⟩, hquiet⟩ := List.forall_mem_cons.1 hquiet
    have hinput : s.input = j := by simp [State.input, hin]
    have hstep : step s = .next s.nextInput := step_quiet hl (hinput ▸ hrst) (hinput ▸ hj)
    rw [List.length_cons, runSteps_succ hstep]
    exact ih (streams_legal hl _ _ _) (by simp [hin]) hquiet

/-- No output reads the coming values of the input ports (R36). -/
theorem outputs_inputs (s : State) (r : List Inputs) : State.outputs { s with inputs := r } = s.outputs := rfl

/-- Settles O20: a stall is a step without an event. -/
theorem backPressureKeepsTheOfferedBeat : Obligations.BackPressureKeepsTheOfferedBeat := by
  unfold Obligations.BackPressureKeepsTheOfferedBeat
  intro s stall rest hl hb hin hstall
  refine ⟨runSteps_quiet hl hin fun j hj => ?_, outputs_inputs s rest⟩
  obtain ⟨hrst, herr, hready⟩ := hstall j hj
  exact ⟨hrst, .inr (.inr ⟨hb, herr, hready⟩)⟩

/-! ### The offered sample -/

/-- Outside `TONE` the data are zeros: silence in `PRE` and `POST` (R141), no beat in `IDLE` and `FAULT` (R36). -/
theorem snkData_of_not_tone {s : State} (hp : s.phase ≠ .tone) : s.snkData = .ok 0x0000#16 := by
  cases h : s.phase with
  | tone => exact absurd h hp
  | idle | pre | post | fault => simp [State.snkData, sampleOf, h, bits16]

/-- Settles O18: in a legal state `idx` is below `N_C`, so that `TONE` has its LUT entry. -/
theorem offeredSampleIsTheLutEntryOrSilence : Obligations.OfferedSampleIsTheLutEntryOrSilence := by
  unfold Obligations.OfferedSampleIsTheLutEntryOrSilence
  intro s hl
  refine ⟨fun hp => ?_, fun hp => snkData_of_not_tone (by simp [hp]), fun hp => snkData_of_not_tone (by simp [hp])⟩
  obtain ⟨x, hentry, hread, -⟩ := memRead_of_lt hl.config hl.idxRange
  exact ⟨x, hentry, snkData_of_tone hp hread⟩

end Sys2Proof.Machine
end

section
/-! PROOFS. The host's encoder (48_host_encoder.md): the lookup key of a letter is its upper case (R161), and a character
without a code leaves the rest of the line as it is (R166, R169). -/

namespace Sys2Proof.Machine

/-! ### The lookup key -/

/-- The key of a lower-case letter is its upper-case form (R161). -/
theorem upperChar_of_lower {c : Char} (h : 97 ≤ c.toNat ∧ c.toNat ≤ 122) : upperChar c = Char.ofNat (c.toNat - 32) :=
  if_pos h

/-- Every other character is its own key (R161). -/
theorem upperChar_of_not_lower {c : Char} (h : ¬ (97 ≤ c.toNat ∧ c.toNat ≤ 122)) : upperChar c = c := if_neg h

/-- The key of a lower-case letter is the capital 32 places below it. -/
theorem toNat_upperChar_of_lower {c : Char} (h : 97 ≤ c.toNat ∧ c.toNat ≤ 122) :
    (upperChar c).toNat = c.toNat - 32 := by
  have hvalid : (c.toNat - 32).isValidChar := .inl (by omega)
  rw [upperChar_of_lower h, Char.toNat_ofNat, if_pos hvalid]

/-- A key is its own key: no capital is a lower-case letter. -/
@[simp] theorem upperChar_upperChar (c : Char) : upperChar (upperChar c) = upperChar c := by
  by_cases h : 97 ≤ c.toNat ∧ c.toNat ≤ 122
  · have hnat := toNat_upperChar_of_lower h
    exact upperChar_of_not_lower (by omega)
  · rw [upperChar_of_not_lower h, upperChar_of_not_lower h]

/-- Only the space has the space as its key: no capital is the space. -/
@[simp] theorem upperChar_eq_space_iff {c : Char} : upperChar c = ' ' ↔ c = ' ' := by
  by_cases h : 97 ≤ c.toNat ∧ c.toNat ≤ 122
  · have hnat := toNat_upperChar_of_lower h
    have hspace : ' '.toNat = 32 := rfl
    constructor
    · intro hkey
      rw [hkey] at hnat
      omega
    · rintro rfl
      omega
  · rw [upperChar_of_not_lower h]

/-- A character and its key find the same code, the space included. -/
@[simp] theorem CodeTable.lookup_upperChar (t : CodeTable) (c : Char) : t.lookup (upperChar c) = t.lookup c := by
  by_cases h : c = ' '
  · rw [h, upperChar_eq_space_iff.2 rfl]
  · rw [t.lookup_of_ne_space h, t.lookup_of_ne_space (mt upperChar_eq_space_iff.1 h), upperChar_upperChar]

/-! ### The encoding of a line, character by character -/

/-- A character and its key are encoded alike, since the encoding reads only the lookup (R167). -/
@[simp] theorem CodeTable.encodeChar_upperChar (t : CodeTable) (c : Char) :
    t.encodeChar (upperChar c) = t.encodeChar c := by
  simp only [CodeTable.encodeChar, CodeTable.lookup_upperChar]

/-- An unsupported character gives no symbol, nor a separator (R166, R169). -/
theorem CodeTable.encodeChar_of_lookup_none {t : CodeTable} {c : Char} (h : t.lookup c = none) :
    t.encodeChar c = [] := by
  simp only [CodeTable.encodeChar, h]

/-- The first character of a line is encoded first. -/
@[simp] theorem CodeTable.encodeSymbols_cons (t : CodeTable) (c : Char) (line : List Char) :
    t.encodeSymbols (c :: line) = t.encodeChar c ++ t.encodeSymbols line := List.flatMap_cons

/-- The parts of a line are encoded one after the other, each by itself. -/
@[simp] theorem CodeTable.encodeSymbols_append (t : CodeTable) (a b : List Char) :
    t.encodeSymbols (a ++ b) = t.encodeSymbols a ++ t.encodeSymbols b := List.flatMap_append

/-- The case of a line's letters makes no difference to its encoding. -/
theorem CodeTable.encodeSymbols_map_upperChar (t : CodeTable) (line : List Char) :
    t.encodeSymbols (line.map upperChar) = t.encodeSymbols line := by
  induction line with
  | nil => rfl
  | cons c line ih => rw [List.map_cons, encodeSymbols_cons, encodeSymbols_cons, encodeChar_upperChar, ih]

/-- An unsupported character makes no difference to the encoding of the line it stands in. -/
theorem CodeTable.encodeSymbols_drop_unsupported {t : CodeTable} {c : Char} (h : t.lookup c = none) (a b : List Char) :
    t.encodeSymbols (a ++ c :: b) = t.encodeSymbols (a ++ b) := by
  rw [encodeSymbols_append, encodeSymbols_cons, encodeChar_of_lookup_none h, List.nil_append, encodeSymbols_append]

/-! ### The statements -/

/-- Settles O53: every character finds what its key finds, and outside `a..z` the key is the character. -/
theorem lookupIsCaseInsensitive : Obligations.LookupIsCaseInsensitive := by
  unfold Obligations.LookupIsCaseInsensitive
  intro t
  refine ⟨fun c hlo hhi => ?_, fun c hspace hlower => ?_, t.encodeSymbols_map_upperChar⟩
  · rw [← upperChar_of_lower ⟨hlo, hhi⟩, t.lookup_upperChar]
  · rw [t.lookup_of_ne_space hspace, upperChar_of_not_lower hlower]

/-- Settles O54: the character's own part of the encoding is empty, and the line's end is the same `EOL`. -/
theorem unsupportedCharactersAreDropped : Obligations.UnsupportedCharactersAreDropped := by
  unfold Obligations.UnsupportedCharactersAreDropped
  intro t a b c h
  have hencode := CodeTable.encodeSymbols_drop_unsupported h a b
  exact ⟨hencode, congrArg (· ++ [Instr.eol]) hencode⟩

end Sys2Proof.Machine
end

section
/-! PROOFS. The exceptions (60_exceptions.md): the `SINK_ERROR` fault of a failed beat (R203), and `FAULT`, which only
reset leaves (R206). -/

namespace Sys2Proof.Machine

/-! ### A failed beat -/

/-- A failed beat takes `SINK_ERROR` with `fault_info` 0 and is not delivered; the state after it is legal (R203). -/
theorem step_fail_legal {s : State} {i : Inputs} {r : List Inputs} (hl : s.Legal) (hb : s.phase.isBusy = true)
    (hin : s.inputs = i :: r) (hrst : i.rst = false) (herr : i.snkErr = true) :
    let t : State := { s with phase := .fault, faultCause := causeSinkError, faultInfo := 0b000#3, inputs := r }
    step s = .next t ∧ t.Legal := by
  have hinput : s.input = i := by simp [State.input, hin]
  have hlegal : State.Legal { s with inputs := r } := streams_legal hl r s.accepted s.taken
  refine ⟨?_, raiseFault_legal hlegal causeSinkError 0b000#3 (.inr ⟨rfl, rfl⟩)⟩
  rw [step_fail hl (hinput ▸ hrst) hb (hinput ▸ herr)]
  simp only [State.nextInput, State.raiseFault, hin, List.tail_cons]

/-- Settles O21: the failed beat brings the block to `FAULT`, where the later steps do nothing. -/
theorem failedBeatTakesSinkError : Obligations.FailedBeatTakesSinkError := by
  unfold Obligations.FailedBeatTakesSinkError
  intro s i l r hl hb hin hrst herr hlrst
  obtain ⟨hstep, hlegal⟩ := step_fail_legal hl hb hin hrst herr
  refine ⟨hstep, _, ?_, (channels_closed_of_fault rfl).2, rfl⟩
  rw [Nat.add_comm, runSteps_succ hstep]
  exact runSteps_fault hlrst hlegal rfl rfl

/-! ### Leaving `FAULT` -/

/-- Settles O23: without reset the steps in `FAULT` do nothing, and a reset after them leads to `IDLE`. -/
theorem faultIsLeftByResetAlone : Obligations.FaultIsLeftByResetAlone := by
  unfold Obligations.FaultIsLeftByResetAlone
  intro s l rest hl hp hin hrst
  have hrun : runSteps l.length s = .next { s with inputs := rest } := runSteps_fault hrst hl hp hin
  refine ⟨fun hend => ?_, hrun, fun i r hrest hi => ?_⟩
  · obtain ⟨hidle, -⟩ := hend
    simp [hp] at hidle
  · have hreset := step_reset (s := { s with inputs := rest }) hl.config (by simpa [State.input, hrest] using hi)
    exact ⟨_, (runSteps_add hrun).trans (runSteps_succ hreset), rfl, rfl, by simp [hrest]⟩

end Sys2Proof.Machine
end

section
/-! PROOFS. The legal states (R38): every step keeps them and every legal state has a next one, reset starts from one, and
a state outside them stops the model by name (R29, R52). -/

namespace Sys2Proof.Machine

/-- Every step from a legal state, whatever the ports carry, gives a legal state. -/
theorem step_legal {s t : State} (hl : s.Legal) (hstep : step s = .next t) : t.Legal := by
  have hnext : s.nextInput.Legal := streams_legal hl _ _ _
  have hrecord : (s.nextInput.recordAccepted s.input.symCode).Legal := streams_legal hl _ _ _
  obtain ⟨-, ⟨-, rfl⟩ | ⟨-, -, -, v, -, ⟨-, rfl⟩ | ⟨hp, -, rfl⟩ | ⟨hb, -, -, rfl⟩ | ⟨-, -, rfl⟩⟩⟩ := step_cases hstep
  · exact applyReset_legal hl.config
  · exact hnext
  · exact acceptAction_legal hrecord hp _
  · exact streams_legal (advance_legal hnext hb) _ _ _
  · exact raiseFault_legal hnext _ _ (.inr ⟨rfl, rfl⟩)

/-- Settles O32: by what the step did, each operation keeping the legal states. -/
theorem everyStepKeepsTheLegalStates : Obligations.EveryStepKeepsTheLegalStates := by
  unfold Obligations.EveryStepKeepsTheLegalStates
  exact fun _ _ => step_legal

/-- What an event does is a next state. -/
theorem perform_next (e : Event) (s : State) : ∃ t, perform e s = .next t := by
  cases e with
  | accept c => exact ⟨_, exec_eq _ _⟩
  | beat v | sinkFail | reset => exact ⟨_, rfl⟩

/-- From a legal state there is a next state, and it is legal. -/
theorem exists_step_legal {s : State} (hl : s.Legal) : ∃ t, step s = .next t ∧ t.Legal := by
  suffices ∃ t, step s = .next t from this.imp fun _ h => ⟨h, step_legal hl h⟩
  cases hrst : s.input.rst with
  | true => exact ⟨_, step_reset hl.config hrst⟩
  | false =>
    obtain ⟨v, -, hstep⟩ := step_of_legal hl hrst
    rw [hstep]
    cases channelEvent s.phase v s.input with
    | none => exact ⟨_, rfl⟩
    | some e => exact perform_next e s.nextInput

/-- Settles O33: in a legal state the channels give an event or a wait, and both have a next state. -/
theorem legalStatesAlwaysStep : Obligations.LegalStatesAlwaysStep := by
  unfold Obligations.LegalStatesAlwaysStep
  exact fun s hl => (exists_step_legal hl).imp fun _ h => h.1

/-- A run from a legal state ends in a legal state. -/
theorem runSteps_legal {k : Nat} {s t : State} (hl : s.Legal) (hrun : runSteps k s = .next t) : t.Legal :=
  runSteps_preserves (fun _ _ => step_legal) hl hrun

/-- From a legal state a run of any length has an end. -/
theorem exists_runSteps (k : Nat) {s : State} (hl : s.Legal) : ∃ t, runSteps k s = .next t := by
  induction k generalizing s with
  | zero => exact ⟨s, rfl⟩
  | succ k ih =>
    obtain ⟨t, hstep, hlt⟩ := exists_step_legal hl
    rw [runSteps_succ hstep]
    exact ih hlt

/-- In a legal state `fault_cause` tells whether the block is in `FAULT` (R38). -/
theorem faultCause_eq_none_iff {s : State} (hl : s.Legal) : s.faultCause = causeNone ↔ s.phase ≠ .fault := by
  obtain ⟨-, -, -, -, -, -, hcause⟩ := hl.consistent
  exact hcause

/-! ### The unreachable states -/

/-- The model stops as the choice of the event says (R38, R52). -/
theorem step_of_eventAt_error {s : State} {f : Fault} (hc : s.cfg.WellFormed) (he : eventAt s s.input = .error f) :
    step s = .fault f := by
  rw [step_of_wellFormed hc, stepEvent, he]

/-- In `TONE` an index past the table makes the sample read fault (R52). -/
theorem snkData_of_tone_error {s : State} {f : Fault} (hp : s.phase = .tone) (h : memRead s.cfg s.idx = .error f) :
    s.snkData = .error f := by
  simp [State.snkData, sampleOf, hp, h]

/-- The offered sample is there unless `TONE` reads outside the table (R36, R52). -/
theorem snkData_ok_of_idx {s : State} (hc : s.cfg.WellFormed) (hidx : s.phase = .tone → s.idx < s.cfg.nC) :
    ∃ v, s.snkData = .ok v := by
  by_cases hp : s.phase = .tone
  · obtain ⟨v, -, hread, -⟩ := memRead_of_lt hc (hidx hp)
    exact ⟨_, snkData_of_tone hp hread⟩
  · exact ⟨_, snkData_of_not_tone hp⟩

/-- Settles O42: the choice of the event stops at the first of the three checks that fails. -/
theorem unreachableStatesFaultByName : Obligations.UnreachableStatesFaultByName := by
  unfold Obligations.UnreachableStatesFaultByName
  intro s hc hrst
  have hevent := eventAt_cases s hrst
  refine ⟨fun hp hidx => ?_, fun hidx hcause => ?_, fun hidx hcause hout => ?_⟩
  · have hdata := snkData_of_tone_error hp (memRead_of_ge hc hidx)
    obtain ⟨f, hf, he⟩ | ⟨v, hv, -⟩ := hevent
    · obtain rfl : Fault.lutIndexOutOfRange = f := by simpa [hdata] using hf
      exact step_of_eventAt_error hc he
    · simp [hdata] at hv
  · obtain ⟨v, hv⟩ := snkData_ok_of_idx hc hidx
    obtain ⟨f, hf, -⟩ | ⟨-, -, ⟨-, he⟩ | ⟨hne, -⟩ | ⟨hne, -⟩⟩ := hevent
    · simp [hv] at hf
    · exact step_of_eventAt_error hc he
    · exact absurd hcause hne
    · exact absurd hcause hne
  · obtain ⟨v, hv⟩ := snkData_ok_of_idx hc hidx
    obtain ⟨f, hf, -⟩ | ⟨-, -, ⟨heq, -⟩ | ⟨-, -, he⟩ | ⟨-, hin, -⟩⟩ := hevent
    · simp [hv] at hf
    · exact absurd heq hcause
    · exact step_of_eventAt_error hc he
    · exact absurd hin hout

end Sys2Proof.Machine
end

section
/-! PROOFS. The rendering of the accepted symbols: how it grows by one symbol (R103, R123 to R128, R143), and how every
step keeps the samples taken and owed equal to it (R60, R204). -/

namespace Sys2Proof.Machine

/-! ### The gap between marks -/

/-- The gap is at least the intra-character gap (R103). -/
theorem one_le_gapUnits (seps : List Instr) : 1 ≤ gapUnits seps := by
  unfold gapUnits
  split
  · omega
  · split <;> omega

/-- A further separator raises the gap to what it asks for itself (R124, R125). -/
theorem gapUnits_cons {x : Instr} (hx : x.isSeparator = true) (seps : List Instr) :
    gapUnits (x :: seps) = max (gapUnits seps) (gapUnits [x]) := by
  by_cases hw : .wgap ∈ seps <;> by_cases hls : .lsep ∈ seps <;> cases x with
  | lsep | wgap => simp [gapUnits, hw, hls]
  | dot | dash | eol | reserved5 | reserved6 | reserved7 => cases hx

/-- A separator's acceptance action raises `need` to the gap it asks for (R120, R121). -/
theorem acceptAction_of_isSeparator {x : Instr} (hx : x.isSeparator = true) :
    acceptAction x = State.raiseNeed (gapUnits [x]) := by
  cases x with
  | lsep | wgap => rfl
  | dot | dash | eol | reserved5 | reserved6 | reserved7 => cases hx

/-- The commands are the marks, the separators, `EOL` and the reserved codes (R12, R72). -/
theorem Instr.kinds (x : Instr) : x.isMark = true ∨ x.isSeparator = true ∨ x = .eol ∨ x.isLegal = false := by
  cases x <;> decide

/-- A reserved code is no mark (R72). -/
theorem isMark_of_not_isLegal {x : Instr} (hx : x.isLegal = false) : x.isMark = false := by
  cases x with
  | dot | dash | lsep | wgap | eol => cases hx
  | reserved5 | reserved6 | reserved7 => rfl

/-! ### The rendering, symbol by symbol -/

/-- The samples that one symbol adds at a position in a line. -/
def symbolStream (c : Config) (p : LinePosition) (x : Instr) : List Sample :=
  (renderRuns p [x]).flatMap fun r => blocks c r.1 (unitBlocks c r.2)

/-- A mark adds the rest of its gap, its tone and one unit of silence (R103, R126). -/
theorem symbolStream_of_isMark (c : Config) (p : LinePosition) {m : Instr} (hm : m.isMark = true) :
    symbolStream c p m = markStream c (leadIn p) (markUnits m) := by
  cases m with
  | dot | dash => simp [symbolStream, renderRuns, markStream, markUnits, igapBlocks, igapUnits]
  | lsep | wgap | eol | reserved5 | reserved6 | reserved7 => cases hm

/-- Every other symbol adds nothing (R120 to R123). -/
theorem symbolStream_of_not_isMark (c : Config) (p : LinePosition) {x : Instr} (hx : x.isMark = false) :
    symbolStream c p x = [] := by
  cases x with
  | dot | dash => cases hx
  | lsep | wgap | eol | reserved5 | reserved6 | reserved7 => rfl

/-- After legal symbols the rendering goes on from the position they lead to. -/
theorem renderRuns_append {l : List Instr} (hl : ∀ x ∈ l, x.isLegal = true) (p : LinePosition) (r : List Instr) :
    renderRuns p (l ++ r) = renderRuns p l ++ renderRuns (l.foldl LinePosition.after p) r := by
  induction l generalizing p with
  | nil => rfl
  | cons x l ih =>
    obtain ⟨hx, htail⟩ := List.forall_mem_cons.1 hl
    cases x with
    | dot | dash | lsep | wgap | eol => simp [renderRuns, ih htail, LinePosition.after]
    | reserved5 | reserved6 | reserved7 => cases hx

/-- One more symbol after legal ones adds its own samples to the rendering. -/
theorem renderStream_snoc (c : Config) {l : List Instr} (hl : ∀ x ∈ l, x.isLegal = true) (x : Instr) :
    renderStream c (l ++ [x]) = renderStream c l ++ symbolStream c (positionAfter l) x := by
  simp [renderStream, renderRuns_append hl, symbolStream, positionAfter]

/-- One more symbol moves the position in the line. -/
@[simp] theorem positionAfter_snoc (l : List Instr) (x : Instr) :
    positionAfter (l ++ [x]) = (positionAfter l).after x := by
  simp [positionAfter]

/-- After a mark no separator has been accepted yet. -/
theorem LinePosition.after_of_isMark (p : LinePosition) {m : Instr} (hm : m.isMark = true) : p.after m = some [] := by
  cases m with
  | dot | dash => rfl
  | lsep | wgap | eol | reserved5 | reserved6 | reserved7 => cases hm

/-- A separator is noted once the line has a mark. -/
theorem LinePosition.after_of_isSeparator (p : LinePosition) {x : Instr} (hx : x.isSeparator = true) :
    p.after x = p.map fun seps => x :: seps := by
  cases x with
  | lsep | wgap => rfl
  | dot | dash | eol | reserved5 | reserved6 | reserved7 => cases hx

/-! ### Where the line stands -/

/-- `seen_mark` and `need` say where the line stands (R27, R28). -/
def State.TracksPosition (s : State) (p : LinePosition) : Prop :=
  s.seenMark = p.isSome ∧ ∀ seps, p = some seps → s.need = gapUnits seps

/-- The top-up of a mark accepted there is the rest of its gap (R100, R103). -/
theorem topUpUnits_eq_leadIn {s : State} {p : LinePosition} (h : s.TracksPosition p) : topUpUnits s = leadIn p := by
  obtain ⟨hseen, hgap⟩ := h
  cases p with
  | none => exact topUpUnits_of_first hseen
  | some seps => simp [topUpUnits, leadIn, hseen, hgap seps rfl, igapUnits]

/-- The acceptance action of a legal command keeps track of the position (R100, R120 to R122). -/
theorem acceptAction_tracksPosition {s : State} {p : LinePosition} (h : s.TracksPosition p) {x : Instr}
    (hx : x.isLegal = true) : (acceptAction x s).TracksPosition (p.after x) := by
  obtain hm | hsep | rfl | hres := Instr.kinds x
  · rw [acceptAction_of_isMark hm, LinePosition.after_of_isMark p hm]
    exact ⟨rfl, by rintro _ ⟨⟩; rfl⟩
  · obtain ⟨hseen, hgap⟩ := h
    rw [acceptAction_of_isSeparator hsep, LinePosition.after_of_isSeparator p hsep]
    refine ⟨by simp [hseen], fun seps' h' => ?_⟩
    obtain ⟨seps, hp, rfl⟩ := Option.map_eq_some_iff.1 h'
    exact (congrArg (max · (gapUnits [x])) (hgap seps hp)).trans (gapUnits_cons hsep seps).symm
  · exact ⟨rfl, by rintro _ ⟨⟩⟩
  · simp [hx] at hres

/-! ### Faithful states -/

/-- A state without a fault is faithful when its stream and its gap state are right. -/
theorem faithful_of_no_fault {s : State} (hcause : s.faultCause = causeNone)
    (hsymbols : ∀ c ∈ s.accepted, (decode c).isLegal = true)
    (hstream : s.taken ++ s.owed = renderStream s.cfg (s.accepted.map decode))
    (hpos : s.TracksPosition (positionAfter (s.accepted.map decode))) : s.Faithful where
  stream _ := hstream
  symbols _ := hsymbols
  seen _ := hpos.1
  gap _ := hpos.2
  truncated _ := ⟨s.owed, hstream⟩
  precise h := absurd (hcause.symm.trans h) (by decide)

/-- A state in `FAULT` is faithful when its stream is cut from the rendering, and whole after a reserved code (R204). -/
theorem faithful_of_fault {s : State} (hp : s.phase = .fault)
    (hcut : s.taken <+: renderStream s.cfg (s.accepted.map decode))
    (hwhole : s.faultCause = causeIllegalSymbol → s.taken = renderStream s.cfg (s.accepted.map decode)) :
    s.Faithful where
  stream h := absurd hp h
  symbols h := absurd hp h
  seen h := absurd hp h
  gap h := absurd hp h
  truncated _ := hcut
  precise := hwhole

/-- The gap state of a faithful state without a fault. -/
theorem State.Faithful.tracksPosition {s : State} (hf : s.Faithful) (hp : s.phase ≠ .fault) :
    s.TracksPosition (positionAfter (s.accepted.map decode)) := ⟨hf.seen hp, hf.gap hp⟩

/-- In `IDLE` every sample of the accepted symbols has been taken (R60). -/
theorem State.Faithful.taken_of_idle {s : State} (hf : s.Faithful) (hp : s.phase = .idle) :
    s.taken = renderStream s.cfg (s.accepted.map decode) := by
  have howed : s.owed = [] := owed_nil_of_not_busy (by simp [hp, Phase.isBusy])
  simpa [howed] using hf.stream (by simp [hp])

/-- Only a mark makes an idle block owe output (R100, R120 to R123). -/
theorem acceptAction_not_busy {x : Instr} (hx : x.isMark = false) {s : State} (hp : s.phase = .idle) :
    (acceptAction x s).phase.isBusy = false := by
  cases x with
  | dot | dash => cases hx
  | lsep | wgap | eol => simp [acceptAction, hp, Phase.isBusy]
  | reserved5 | reserved6 | reserved7 => rfl

/-- What is owed after a command is accepted in `IDLE`: the samples it adds to the rendering (R60, R100). -/
theorem acceptAction_owed {s : State} {p : LinePosition} (hc : s.cfg.WellFormed) (hp : s.phase = .idle)
    (hpos : s.TracksPosition p) (x : Instr) : (acceptAction x s).owed = symbolStream s.cfg p x := by
  cases hm : x.isMark with
  | true =>
    have hd := markUnits_of_isMark hm
    rw [acceptAction_of_isMark hm, mark_owed hc (by omega), topUpUnits_eq_leadIn hpos, symbolStream_of_isMark _ _ hm]
  | false => rw [owed_nil_of_not_busy (acceptAction_not_busy hm hp), symbolStream_of_not_isMark _ _ hm]

/-- Accepting a symbol in `IDLE` keeps faithfulness: a legal one owes what it adds to the rendering, a reserved one adds
nothing (R60, R123). -/
theorem accept_faithful {s : State} (hl : s.Legal) (hf : s.Faithful) (hp : s.phase = .idle) (c : SymCode) :
    (acceptAction (decode c) (s.nextInput.recordAccepted c)).Faithful := by
  have hnf : s.phase ≠ .fault := by simp [hp]
  have hsym := hf.symbols hnf
  have hpos := hf.tracksPosition hnf
  obtain ⟨hcfg, -, haccepted, htaken⟩ := acceptAction_keeps (decode c) (s.nextInput.recordAccepted c)
  have hrender : renderStream s.cfg ((s.accepted ++ [c]).map decode) =
      s.taken ++ symbolStream s.cfg (positionAfter (s.accepted.map decode)) (decode c) := by
    rw [List.map_append, List.map_singleton, renderStream_snoc _ (by simpa using hsym), hf.taken_of_idle hp]
  cases hx : (decode c).isLegal with
  | true =>
    apply faithful_of_no_fault
    · rw [acceptAction_faultCause_of_isLegal hx]
      exact (faultCause_eq_none_iff hl).2 hnf
    · rw [haccepted]
      exact List.forall_mem_append.2 ⟨hsym, by simpa using hx⟩
    · rw [htaken, hcfg, haccepted, acceptAction_owed (s := s.nextInput.recordAccepted c) hl.config hp hpos]
      exact hrender.symm
    · rw [haccepted, State.recordAccepted_accepted, List.map_append, List.map_singleton, positionAfter_snoc]
      exact acceptAction_tracksPosition (s := s.nextInput.recordAccepted c) hpos hx
  | false =>
    rw [symbolStream_of_not_isMark _ _ (isMark_of_not_isLegal hx), List.append_nil] at hrender
    rw [acceptAction_of_not_isLegal hx]
    exact faithful_of_fault rfl ⟨[], (List.append_nil _).trans hrender.symm⟩ fun _ => hrender.symm

/-- Settles O34: by what the step did. -/
theorem streamRendersTheAcceptedSymbols : Obligations.StreamRendersTheAcceptedSymbols := by
  unfold Obligations.StreamRendersTheAcceptedSymbols
  intro s t hl hf hrst hstep
  obtain ⟨-, ⟨hreset, -⟩ | ⟨-, -, -, v, hv, ⟨-, rfl⟩ | ⟨hp, -, rfl⟩ | ⟨hb, -, -, rfl⟩ | ⟨hb, -, rfl⟩⟩⟩ := step_cases hstep
  · simp [hrst] at hreset
  · exact ⟨hf.stream, hf.symbols, hf.seen, hf.gap, hf.truncated, hf.precise⟩
  · exact accept_faithful hl hf hp _
  · have hnf : s.phase ≠ .fault := Phase.ne_fault_of_isBusy hb
    apply faithful_of_no_fault
    · simpa using (faultCause_eq_none_iff hl).2 hnf
    · simpa using hf.symbols hnf
    · simpa [owed_taken, owed_advance hl hb hv] using hf.stream hnf
    · simpa [State.TracksPosition] using hf.tracksPosition hnf
  · have hnf : s.phase ≠ .fault := Phase.ne_fault_of_isBusy hb
    have hcause : causeSinkError ≠ causeIllegalSymbol := by decide
    exact faithful_of_fault rfl ⟨s.owed, hf.stream hnf⟩ fun h => absurd h hcause

/-- Settles O35: in `IDLE` nothing is owed, and the `EOL` adds nothing to the rendering. -/
theorem acceptedEolCompletesTheLine : Obligations.AcceptedEolCompletesTheLine := by
  unfold Obligations.AcceptedEolCompletesTheLine
  refine ⟨fun s hf hend => hf.taken_of_idle hend.1, fun s t hl hf hp hrst hvalid heol hstep => ?_⟩
  have hft := streamRendersTheAcceptedSymbols s t hl hf hrst hstep
  rw [step_accept hl hrst hp hvalid, heol] at hstep
  injection hstep with ht
  subst ht
  exact ⟨hf.taken_of_idle hp, rfl, hft.taken_of_idle hp⟩

end Sys2Proof.Machine
end

section
/-! PROOFS. One step at a time: the event it is (R8), the samples of a block that are out (R56), and what `FAULT` hides
from an observer (R201, 93 I11). -/

namespace Sys2Proof.Machine

/-! ### The events -/

/-- Settles O36: by what the step did, none of which touches the streams but the acceptance and the take. -/
theorem eachStepIsAtMostOneEvent : Obligations.EachStepIsAtMostOneEvent := by
  unfold Obligations.EachStepIsAtMostOneEvent
  intro s t hstep
  obtain ⟨-, ⟨hrst, rfl⟩ | ⟨hrst, -, -, v, hv, ⟨-, rfl⟩ | ⟨hp, hvalid, rfl⟩ | ⟨hb, herr, hready, rfl⟩ | ⟨hb, herr, rfl⟩⟩⟩ :=
    step_cases hstep
  · exact ⟨rfl, .inl ⟨hrst, rfl, rfl, rfl⟩⟩
  · exact ⟨rfl, .inr (.inr (.inr (.inr ⟨hrst, rfl⟩)))⟩
  · obtain ⟨-, hinputs, haccepted, htaken⟩ :=
      acceptAction_keeps (decode s.input.symCode) (s.nextInput.recordAccepted s.input.symCode)
    exact ⟨hinputs, .inr (.inl ⟨hrst, hp, hvalid, haccepted, htaken⟩)⟩
  · exact ⟨by simp, .inr (.inr (.inl ⟨hrst, hb, herr, hready, by simp, v, hv, by simp⟩))⟩
  · exact ⟨rfl, .inr (.inr (.inr (.inl ⟨hrst, hb, herr, rfl, rfl, rfl⟩)))⟩

/-- Every step uses up the port values of one step. -/
theorem step_inputs {s t : State} (hstep : step s = .next t) : t.inputs = s.inputs.tail :=
  (eachStepIsAtMostOneEvent s t hstep).1

/-! ### Whole blocks -/

/-- The end of a phase leaves `idx` alone (R142). -/
theorem endPhase_idx (s : State) : s.endPhase.idx = s.idx := by
  obtain ⟨p, b, h⟩ := endPhase_frame s
  rw [h]

/-- A taken beat moves `idx` on by one, round the block (R142). -/
theorem advance_idx {s : State} (hidx : s.idx < s.cfg.nC) : s.advance.idx = (s.idx + 1) % s.cfg.nC := by
  have hround : ¬ s.idx + 1 < s.cfg.nC → 0 = (s.idx + 1) % s.cfg.nC := fun h => by
    rw [show s.idx + 1 = s.cfg.nC by omega, Nat.mod_self]
  obtain ⟨h, he⟩ | ⟨h, -, he⟩ | ⟨h, -, he⟩ := advance_cases s <;> rw [he]
  · exact (Nat.mod_eq_of_lt h).symm
  · exact hround h
  · exact (endPhase_idx _).trans (hround h)

/-- Accepting a command at the start of a block leaves `idx` there (R100). -/
theorem acceptAction_idx (i : Instr) {s : State} (hidx : s.idx = 0) : (acceptAction i s).idx = 0 := by
  cases i with
  | dot | dash => rfl
  | lsep | wgap | eol | reserved5 | reserved6 | reserved7 => exact hidx

/-- Settles O39: a taken beat adds one to both sides, and in `IDLE` `idx` is and stays 0. -/
theorem outputComesInWholeBlocks : Obligations.OutputComesInWholeBlocks := by
  unfold Obligations.OutputComesInWholeBlocks
  intro s t hl hrst hstep hnf hout
  obtain ⟨-, ⟨h, -⟩ | ⟨-, -, -, v, -, ⟨-, rfl⟩ | ⟨hp, -, rfl⟩ | ⟨-, -, -, rfl⟩ | ⟨-, -, rfl⟩⟩⟩ := step_cases hstep
  · simp [hrst] at h
  · exact hout
  · obtain ⟨hidle, -⟩ := hl.consistent
    have hidx : s.idx = 0 := (hidle hp).2
    obtain ⟨hcfg, -, -, htaken⟩ :=
      acceptAction_keeps (decode s.input.symCode) (s.nextInput.recordAccepted s.input.symCode)
    rw [htaken, hcfg, acceptAction_idx (s := s.nextInput.recordAccepted s.input.symCode) _ hidx]
    exact hout.trans hidx
  · rw [State.recordTaken_idx, advance_idx (s := s.nextInput) hl.idxRange]
    simp [Nat.add_mod, hout]
  · exact absurd rfl hnf

/-! ### What `FAULT` hides -/

/-- Two states that are the same outside their hidden fields are observed alike in `FAULT` (R36, R201). -/
theorem sameOutside_observed {s t : State} (hp : s.phase = .fault) (h : s.SameOutside t) :
    s.observation = t.observation ∧ s.outputs = t.outputs := by
  obtain ⟨-, hphase, hcause, hinfo, -, haccepted, htaken⟩ := h
  have hs : s.snkData = .ok 0#16 := snkData_of_not_tone (by simp [hp])
  have ht : t.snkData = .ok 0#16 := snkData_of_not_tone (by simp [← hphase, hp])
  constructor
  · simp [State.observation, hphase, hcause, hinfo, haccepted, htaken]
  · simp [State.outputs, hs, ht, State.symReady, State.snkValid, State.busy, State.faulted, hphase, hcause, hinfo]

/-- Reset writes every field that `FAULT` hides (R230). -/
theorem applyReset_eq_of_sameOutside {s t : State} (h : s.SameOutside t) :
    s.nextInput.applyReset = t.nextInput.applyReset := by
  obtain ⟨hcfg, -, -, -, hinputs, haccepted, htaken⟩ := h
  simp [State.applyReset, State.nextInput, hcfg, hinputs, haccepted, htaken]

/-- A step in `FAULT` makes two states that look the same equal, by a reset, or keeps them looking the same. -/
theorem step_sameOutside {s t : State} (hls : s.Legal) (hlt : t.Legal) (hp : s.phase = .fault) (h : s.SameOutside t) :
    (∃ u, step s = .next u ∧ step t = .next u) ∨
      step s = .next s.nextInput ∧ step t = .next t.nextInput ∧ s.nextInput.SameOutside t.nextInput := by
  have ⟨hcfg, hphase, hcause, hinfo, hinputs, haccepted, htaken⟩ := h
  have hinput : s.input = t.input := by simp [State.input, hinputs]
  cases hrst : s.input.rst with
  | true =>
    refine .inl ⟨_, step_reset hls.config hrst, ?_⟩
    rw [applyReset_eq_of_sameOutside h]
    exact step_reset hlt.config (hinput ▸ hrst)
  | false =>
    refine .inr ⟨step_quiet hls hrst (.inr (.inl hp)), step_quiet hlt (hinput ▸ hrst) (.inr (.inl (hphase ▸ hp))), ?_⟩
    exact ⟨hcfg, hphase, hcause, hinfo, congrArg List.tail hinputs, haccepted, htaken⟩

/-- Settles O40: the two runs look the same while they stay in `FAULT`, and are the same run after a reset. -/
theorem hiddenFieldsOfAFaultCannotBeObserved : Obligations.HiddenFieldsOfAFaultCannotBeObserved := by
  unfold Obligations.HiddenFieldsOfAFaultCannotBeObserved
  intro k
  induction k with
  | zero => exact fun s t _ _ hp h => ⟨s, t, rfl, rfl, sameOutside_observed hp h⟩
  | succ k ih =>
    intro s t hls hlt hp h
    obtain ⟨u, hs, ht⟩ | ⟨hs, ht, hnext⟩ := step_sameOutside hls hlt hp h
    · obtain ⟨w, hw⟩ := exists_runSteps k (step_legal hls hs)
      exact ⟨w, w, (runSteps_succ hs).trans hw, (runSteps_succ ht).trans hw, rfl, rfl⟩
    · rw [runSteps_succ hs, runSteps_succ ht]
      exact ih _ _ (step_legal hls hs) (step_legal hlt ht) hp hnext

end Sys2Proof.Machine
end

section
/-! PROOFS. Runs between and during marks: the gap that separators make (R103, R124 to R128, R234), waits (R212), stalls
(R149), a held symbol (R235) and a failing sink (R204). -/

namespace Sys2Proof.Machine

/-! ### Separators between two marks -/

/-- Separators offered in `IDLE` are accepted one a step and raise `need` to the gap they ask for together (R124, R125). -/
theorem runSteps_separators {seps : List Instr} {rest : List Inputs} (hseps : ∀ x ∈ seps, x.isSeparator = true)
    {s : State} (hl : s.Legal) (hp : s.phase = .idle) (hin : s.inputs = offers seps ++ rest) :
    let t : State := { s with need := max s.need (gapUnits seps), inputs := rest,
                              accepted := s.accepted ++ seps.map encode }
    runSteps seps.length s = .next t ∧ t.Legal := by
  suffices runSteps seps.length s = .next { s with
      need := max s.need (gapUnits seps), inputs := rest, accepted := s.accepted ++ seps.map encode } from
    ⟨this, runSteps_legal hl this⟩
  induction seps generalizing s with
  | nil =>
    obtain rfl : s.inputs = rest := hin
    obtain ⟨-, -, -, -, -, ⟨hneed, -⟩, -⟩ := hl.consistent
    have hmax : max s.need (gapUnits []) = s.need := max_eq_left (by simp [gapUnits]; omega)
    simp [runSteps, hmax]
  | cons x seps ih =>
    obtain ⟨hx, htail⟩ := List.forall_mem_cons.1 hseps
    obtain ⟨hstep, hlegal⟩ := step_accept_instr (x := x) (r := offers seps ++ rest) hl hp hin rfl rfl rfl
    rw [acceptAction_of_isSeparator hx] at hstep hlegal
    rw [List.length_cons, runSteps_succ hstep, ih htail hlegal hp rfl, gapUnits_cons hx seps]
    simp [State.raiseNeed, max_assoc, max_comm (gapUnits [x])]

/-- A mark offered in `IDLE` and its beats, all taken: the block is idle again and the stream has grown by the top-up,
the tone and the unit of silence (R100, R142). -/
theorem runSteps_offered_mark {s : State} {m : Instr} {pre : Nat} {takes rest : List Inputs} (hm : m.isMark = true)
    (hl : s.Legal) (hp : s.phase = .idle) (hin : s.inputs = Inputs.offer (encode m) :: (takes ++ rest))
    (htop : topUpUnits s = pre) (htakes : ∀ j ∈ takes, j.Takes)
    (hlen : takes.length = (pre + markUnits m + 1) * s.cfg.U * s.cfg.nC) :
    ∃ t, runSteps (1 + takes.length) s = .next t ∧ t.phase = .idle ∧ t.inputs = rest ∧
      t.taken = s.taken ++ (blocks s.cfg .silence (pre * s.cfg.U) ++ blocks s.cfg .tone (markUnits m * s.cfg.U) ++
        blocks s.cfg .silence s.cfg.U) := by
  subst htop
  refine ⟨_, runSteps_mark hm hl hp hin rfl rfl rfl htakes (hlen.trans (markStream_length hl.config _ _).symm), hp, rfl, ?_⟩
  simp [markStream, unitBlocks, igapBlocks, igapUnits]

/-- Settles O26: the separators bring `need` from 1 to their gap, of which the top-up is all but one unit. -/
theorem separatorsDecideTheGapBetweenMarks : Obligations.SeparatorsDecideTheGapBetweenMarks := by
  unfold Obligations.SeparatorsDecideTheGapBetweenMarks
  intro s seps m takes rest hl hp hseen hneed hseps hm hin htakes hlen
  obtain ⟨hrun, hlegal⟩ := runSteps_separators (rest := Inputs.offer (encode m) :: (takes ++ rest)) hseps hl hp
    (by simpa [offers] using hin)
  have hgap := one_le_gapUnits seps
  have htop : topUpUnits { s with need := max s.need (gapUnits seps),
                                  inputs := Inputs.offer (encode m) :: (takes ++ rest),
                                  accepted := s.accepted ++ seps.map encode } = gapUnits seps - 1 := by
    simp [topUpUnits, hseen, hneed, igapUnits, hgap]
  have hunits : gapUnits seps + markUnits m = gapUnits seps - 1 + markUnits m + 1 := by omega
  obtain ⟨t, hmark, hend⟩ := runSteps_offered_mark hm hlegal hp rfl htop htakes (hunits ▸ hlen)
  exact ⟨t, by rw [Nat.add_assoc, runSteps_add hrun, hmark], hend⟩

/-- Settles O27: the `EOL` clears `seen_mark`, and the separators after it leave it at 0, so that there is no top-up. -/
theorem nothingIsAddedBetweenLines : Obligations.NothingIsAddedBetweenLines := by
  unfold Obligations.NothingIsAddedBetweenLines
  intro s before after m takes rest hl hp hbefore hafter hm hin htakes hlen
  obtain ⟨n, b, hrunBefore, hlegalBefore, -⟩ := runSteps_separators_and_eols
    (rest := Inputs.offer (encode .eol) :: (offers after ++ Inputs.offer (encode m) :: (takes ++ rest)))
    (fun x hx => .inl (hbefore x hx)) hl hp (by simpa [offers] using hin)
  obtain ⟨hstepEol, hlegalEol⟩ := step_accept_instr (x := .eol) hlegalBefore hp rfl rfl rfl rfl
  obtain ⟨n', b', hrunAfter, hlegalAfter, hunseen⟩ := runSteps_separators_and_eols
    (rest := Inputs.offer (encode m) :: (takes ++ rest)) (fun x hx => .inl (hafter x hx)) hlegalEol hp rfl
  obtain ⟨t, hmark, hidle, hinputs, htaken⟩ := runSteps_offered_mark hm hlegalAfter hp rfl
    (topUpUnits_of_first (hunseen rfl)) htakes (by simpa [acceptAction] using hlen)
  refine ⟨t, ?_, hidle, hinputs, by simpa [acceptAction] using htaken⟩
  rw [show before.length + 1 + after.length + 1 + takes.length =
      before.length + (after.length + (1 + takes.length) + 1) by omega,
    runSteps_add hrunBefore, runSteps_succ hstepEol, runSteps_add hrunAfter, hmark]

/-! ### Waits, stalls and failures -/

/-- Settles O22: in `IDLE` a step without an offer is a step without an event. -/
theorem idleWaitsAndIgnoresTheSink : Obligations.IdleWaitsAndIgnoresTheSink := by
  unfold Obligations.IdleWaitsAndIgnoresTheSink
  intro s wait rest hl hp hin hwait
  refine runSteps_quiet hl hin fun j hj => ?_
  obtain ⟨hrst, hvalid⟩ := hwait j hj
  exact ⟨hrst, .inl ⟨hp, hvalid⟩⟩

/-- A step in which nothing is taken and nothing fails leaves the owed samples first in line, whatever it accepts. -/
theorem step_calm_of_not_ready {s t : State} (hcalm : s.input.Calm) (hready : s.input.snkReady = false)
    (hstep : step s = .next t) : t.taken = s.taken ∧ s.owed <+: t.owed := by
  obtain ⟨hrst, herr⟩ := hcalm
  obtain ⟨-, ⟨h, -⟩ | ⟨-, -, -, v, -, ⟨-, rfl⟩ | ⟨hp, -, rfl⟩ | ⟨-, -, h, -⟩ | ⟨-, h, -⟩⟩⟩ := step_cases hstep
  · simp [hrst] at h
  · exact ⟨rfl, List.prefix_rfl⟩
  · obtain ⟨-, -, -, htaken⟩ := acceptAction_keeps (decode s.input.symCode) (s.nextInput.recordAccepted s.input.symCode)
    rw [owed_nil_of_not_busy (by simp [hp, Phase.isBusy])]
    exact ⟨htaken, List.nil_prefix⟩
  · simp [hready] at h
  · simp [herr] at h

/-- Takes and stalls deliver the next owed samples, as many as are taken (R149). -/
theorem runSteps_calm {l rest : List Inputs} (hcalm : ∀ i ∈ l, i.Calm) {s : State} (hl : s.Legal)
    (hin : s.inputs = l ++ rest) (hcount : l.countP (fun i => i.snkReady) ≤ s.owed.length) :
    ∃ t, runSteps l.length s = .next t ∧ t.taken = s.taken ++ s.owed.take (l.countP fun i => i.snkReady) := by
  induction l generalizing s with
  | nil => exact ⟨s, rfl, by simp⟩
  | cons i l ih =>
    obtain ⟨hi, htail⟩ := List.forall_mem_cons.1 hcalm
    have hinput : s.input = i := by simp [State.input, hin]
    cases hready : i.snkReady with
    | true =>
      simp only [List.countP_cons, hready, if_true] at hcount
      obtain ⟨v, l', ho⟩ : ∃ v l', s.owed = v :: l' := List.exists_cons_of_length_pos (by omega)
      obtain ⟨p, b, k, hstep, hlegal, howed⟩ := step_take_owed hl (hinput ▸ ⟨hi.1, hi.2, hready⟩) ho
      obtain ⟨t, hrun, htaken⟩ := ih htail hlegal (by simp [hin]) (by simpa [howed, ho] using hcount)
      refine ⟨t, by rw [List.length_cons, runSteps_succ hstep, hrun], ?_⟩
      simpa [howed, ho, hready] using htaken
    | false =>
      simp only [List.countP_cons, hready, Bool.false_eq_true, if_false, Nat.add_zero] at hcount ⊢
      obtain ⟨u, hstep, hlegal⟩ := exists_step_legal hl
      obtain ⟨hkept, rem, howed⟩ := step_calm_of_not_ready (hinput ▸ hi) (hinput ▸ hready) hstep
      have hu : u.inputs = l ++ rest := by rw [step_inputs hstep, hin]; rfl
      obtain ⟨t, hrun, htaken⟩ := ih htail hlegal hu (by rw [← howed, List.length_append]; omega)
      refine ⟨t, by rw [List.length_cons, runSteps_succ hstep, hrun], ?_⟩
      rw [htaken, hkept, ← howed, List.take_append_of_le_length hcount]

/-- Settles O29: a take delivers the next owed sample, and the other steps leave what is owed first in line. -/
theorem stallsDoNotChangeTheStream : Obligations.StallsDoNotChangeTheStream := by
  unfold Obligations.StallsDoNotChangeTheStream
  exact fun s l rest hl hin hcalm hcount => runSteps_calm hcalm hl hin hcount

/-- Settles O30: the takes accept nothing and end in `IDLE`, where the held symbol is accepted. -/
theorem heldSymbolIsAcceptedOnceAfterTheLastBeat : Obligations.HeldSymbolIsAcceptedOnceAfterTheLastBeat := by
  unfold Obligations.HeldSymbolIsAcceptedOnceAfterTheLastBeat
  intro s c takes j rest hl hb hin hheld hlen hrst hvalid hcode
  have hnone : s.faultCause = causeNone := (faultCause_eq_none_iff hl).2 (Phase.ne_fault_of_isBusy hb)
  have hrun := runSteps_takes_all (rest := j :: rest) hl hnone hin (fun i hi => (hheld i hi).1) hlen
  obtain ⟨hstep, -⟩ := step_accept_instr (x := decode c) (runSteps_legal hl hrun) rfl rfl hrst hvalid
    (hcode.trans (encode_decode c).symm)
  rw [encode_decode] at hstep
  obtain ⟨-, -, haccepted, htaken⟩ := acceptAction_keeps (decode c)
    { s with phase := .idle, blkLeft := 0, idx := 0, inputs := rest, accepted := s.accepted ++ [c],
             taken := s.taken ++ s.owed }
  exact ⟨_, _, hrun, rfl, rfl, (runSteps_add hrun).trans (runSteps_succ hstep), haccepted, htaken⟩

/-- Settles O31: the takes deliver their samples, and the failed beat is not delivered. -/
theorem sinkFailureTruncatesTheStream : Obligations.SinkFailureTruncatesTheStream := by
  unfold Obligations.SinkFailureTruncatesTheStream
  intro s takes j rest hl hin htakes hlen hrst herr
  obtain ⟨t, hrun, hp, hcause, -, htaken, haccepted⟩ := runSteps_takes_fail hl hin htakes hlen hrst herr
  exact ⟨t, hrun, hp, hcause, htaken, haccepted⟩

end Sys2Proof.Machine
end

section
/-! PROOFS. Reset, the words of the table, and acceptance: what reset leaves (R37, R230), how a word comes to run (R33,
R70, R74), and what each command writes and leaves (R100 to R102, R120 to R123). -/

namespace Sys2Proof.Machine

/-! ### Reset -/

/-- The state after reset is legal in every well-formed configuration: it is its own reset (R37, R230). -/
theorem resetIn_legal {c : Config} (hc : c.WellFormed) : (State.resetIn c).Legal :=
  applyReset_legal (s := State.resetIn c) hc

/-- The state after reset is faithful: nothing is accepted, taken or owed. -/
theorem resetIn_faithful (c : Config) : (State.resetIn c).Faithful :=
  faithful_of_no_fault rfl (List.forall_mem_nil _) rfl ⟨rfl, fun _ h => by cases h⟩

/-- Settles O3: CFG-A is one of the well-formed configurations. -/
theorem resetStatesAreLegalAndFaithful : Obligations.ResetStatesAreLegalAndFaithful := by
  unfold Obligations.ResetStatesAreLegalAndFaithful
  have hA : Config.cfgA.WellFormed := by decide
  exact ⟨fun c hc => ⟨resetIn_legal hc, resetIn_faithful c⟩, resetIn_legal hA, resetIn_faithful _⟩

/-- The first mark of a line goes straight to its tone (R100, R127). -/
theorem mark_of_first {s : State} (hseen : s.seenMark = false) (d : Nat) :
    (s.mark d).phase = .tone ∧ (s.mark d).blkLeft = d * s.cfg.U := by
  simp [topUpUnits_of_first hseen, unitBlocks]

/-- Settles O1: the reset is the step's event, and it clears `seen_mark`, so that the next mark has no top-up. -/
theorem resetWinsAndClearsTheLine : Obligations.ResetWinsAndClearsTheLine := by
  unfold Obligations.ResetWinsAndClearsTheLine
  intro s i r hc hin hrst t
  have hreset := step_reset hc (show s.input.rst = true by simpa [State.input, hin] using hrst)
  have ht : s.nextInput.applyReset = t := by simp [State.applyReset, State.nextInput, causeNone, hin, t]
  have hidle : t.phase = .idle := rfl
  obtain ⟨hdotPhase, hdotBlocks⟩ := mark_of_first (s := t) rfl 1
  obtain ⟨hdashPhase, hdashBlocks⟩ := mark_of_first (s := t) rfl 3
  exact ⟨ht ▸ hreset, ⟨_, exec_of_idle .dot hidle, hdotPhase, hdotBlocks.trans (Nat.one_mul _)⟩,
    ⟨_, exec_of_idle .dash hidle, hdashPhase, hdashBlocks⟩⟩

/-! ### Words -/

/-- A number below 8 is a symbol word (R70). -/
theorem decodeTableWord_of_lt (n : Nat) {w : Nat} (h : w < 8) :
    decodeTableWord n w = some (decode (BitVec.ofNat 3 w)) := by
  simp [decodeTableWord, decodeWord, h]

/-- Every other number is none (R70). -/
theorem decodeTableWord_of_ge (n : Nat) {w : Nat} (h : 8 ≤ w) : decodeTableWord n w = none := by
  simp [decodeTableWord, decodeWord, h.not_gt]

/-- Settles O5: the maps are inverse, and the words are the numbers below 8. -/
theorem decodeAndEncodeAreInverse : Obligations.DecodeAndEncodeAreInverse := by
  unfold Obligations.DecodeAndEncodeAreInverse
  exact ⟨decode_encode, encode_decode, fun n _ => decodeTableWord_of_lt n, fun n _ => decodeTableWord_of_ge n⟩

/-- In a legal idle state an offered symbol is taken from the channel and its command runs (R33, R74). -/
theorem step_eq_exec {s : State} {i : Inputs} {r : List Inputs} (hl : s.Legal) (hp : s.phase = .idle)
    (hin : s.inputs = i :: r) (hrst : i.rst = false) (hvalid : i.symValid = true) :
    step s = exec (decode i.symCode) { s with inputs := r, accepted := s.accepted ++ [i.symCode] } := by
  obtain ⟨hstep, -⟩ := step_accept_instr hl hp hin hrst hvalid (encode_decode i.symCode).symm
  rw [hstep, encode_decode, exec_of_idle]
  exact hp

/-- Settles O6: the step is the acceptance. -/
theorem stepRunsTheDecodedSymbol : Obligations.StepRunsTheDecodedSymbol := by
  unfold Obligations.StepRunsTheDecodedSymbol
  exact fun s i r hl hp hin hrst hvalid => step_eq_exec hl hp hin hrst hvalid

/-- The state in which a word is placed is legal when the fields it keeps are in range. -/
theorem offered_legal {s : State} (hc : s.cfg.WellFormed) (hneed : s.need = 1 ∨ s.need = 3 ∨ s.need = 7)
    (hunits : s.toneUnits = 1 ∨ s.toneUnits = 3) (c : SymCode) : (s.offered c).Legal := by
  have ⟨_, hN, _⟩ := hc
  refine legal_of ⟨hc, ⟨?_, ?_, ?_, ?_, ?_, ⟨hneed, hunits⟩, ?_⟩, ?_, ?_, ?_, ?_, hN, ?_⟩ <;>
    simp [Phase.isBusy, causeNone, causeReserved, causeIllegalSymbol]

/-- Settles O7: the placed word is an offer in a legal idle state. -/
theorem offeredTableWordRunsNext : Obligations.OfferedTableWordRunsNext := by
  unfold Obligations.OfferedTableWordRunsNext
  intro s n w i hc hneed hunits hword
  have hw : w < 8 := by
    by_contra h
    simp [decodeTableWord_of_ge n (not_lt.1 h)] at hword
  obtain rfl : decode (BitVec.ofNat 3 w) = i := by simpa [decodeTableWord_of_lt n hw] using hword
  rw [encode_decode]
  exact step_eq_exec (i := Inputs.offer (BitVec.ofNat 3 w)) (offered_legal hc hneed hunits _) rfl rfl rfl rfl

/-! ### What a command writes and what it leaves -/

/-- All a command can do, in any phase: its acceptance action or nothing. -/
theorem exec_cases {i : Instr} {s t : State} (h : exec i s = .next t) : t = acceptAction i s ∨ t = s := by
  rw [exec_eq] at h
  injection h with h
  split at h
  · exact .inl h.symm
  · exact .inr h.symm

/-- A top-up is owed exactly with a mark in the line and a requirement above one unit (R100). -/
theorem topUpUnits_pos_iff (s : State) : 0 < topUpUnits s ↔ s.seenMark = true ∧ 1 < s.need := by
  unfold topUpUnits igapUnits
  split <;> simp_all

/-- With a mark in the line the top-up is the requirement less one unit (R100). -/
theorem topUpUnits_of_seen {s : State} (h : s.seenMark = true) : topUpUnits s = s.need - 1 := if_pos h

/-- The pseudocode of `MARK(d)` (R100). -/
theorem mark_eq (d : Nat) (s : State) :
    s.mark d =
      { s with toneUnits := d, seenMark := true, need := 1, idx := 0,
               phase := if s.seenMark = true ∧ 1 < s.need then .pre else .tone,
               blkLeft := if s.seenMark = true ∧ 1 < s.need then (s.need - 1) * s.cfg.U else d * s.cfg.U } := by
  simp only [State.mark, topUpUnits_pos_iff, igapUnits, unitBlocks]
  split
  · next h => rw [topUpUnits_of_seen h.1]
  · rfl

/-- Settles O8: the dot and the dash are `MARK(1)` and `MARK(3)`. -/
theorem marksSetUpTopUpOrTone : Obligations.MarksSetUpTopUpOrTone := by
  unfold Obligations.MarksSetUpTopUpOrTone
  intro s hp
  exact ⟨(exec_of_idle .dot hp).trans (congrArg _ (mark_eq 1 s)), (exec_of_idle .dash hp).trans (congrArg _ (mark_eq 3 s))⟩

/-- Settles O13: `sym_ready` is 0 outside `IDLE`, and `exec` then answers the state itself. -/
theorem noSymbolIsAcceptedOutsideIdle : Obligations.NoSymbolIsAcceptedOutsideIdle := by
  unfold Obligations.NoSymbolIsAcceptedOutsideIdle
  exact fun i s hp => ⟨symReady_of_not_idle hp, exec_of_not_idle i hp⟩

/-- Settles O14: `MARK(d)` writes none of these fields. -/
theorem marksLeaveFaultsStreamsAndRomAlone : Obligations.MarksLeaveFaultsStreamsAndRomAlone := by
  unfold Obligations.MarksLeaveFaultsStreamsAndRomAlone
  intro i s t hi hexec
  obtain rfl | rfl := exec_cases hexec
  · obtain rfl | rfl := hi <;> exact ⟨rfl, rfl, rfl, rfl, rfl, rfl, fun _ => rfl, fun _ => rfl⟩
  · exact ⟨rfl, rfl, rfl, rfl, rfl, rfl, fun _ => rfl, fun _ => rfl⟩

/-- Settles O15: raising `need` and ending a line write none of these fields. -/
theorem separatorsAndEolChangeOnlyTheGapState : Obligations.SeparatorsAndEolChangeOnlyTheGapState := by
  unfold Obligations.SeparatorsAndEolChangeOnlyTheGapState
  intro i s t hi hexec
  obtain rfl | rfl := exec_cases hexec
  · refine ⟨fun hne => ?_, ?_⟩
    · obtain rfl | rfl | rfl := hi
      · rfl
      · rfl
      · exact absurd rfl hne
    · obtain rfl | rfl | rfl := hi <;>
        exact ⟨rfl, rfl, rfl, rfl, rfl, rfl, rfl, rfl, rfl, rfl, fun _ => rfl, fun _ => rfl⟩
  · exact ⟨fun _ => rfl, rfl, rfl, rfl, rfl, rfl, rfl, rfl, rfl, rfl, rfl, fun _ => rfl, fun _ => rfl⟩

/-- Settles O16: taking a fault writes none of these fields. -/
theorem reservedCodesChangeOnlyPhaseAndFaultRegisters : Obligations.ReservedCodesChangeOnlyPhaseAndFaultRegisters := by
  unfold Obligations.ReservedCodesChangeOnlyPhaseAndFaultRegisters
  intro i s t hi hexec
  have hillegal : i.isLegal = false := by obtain rfl | rfl | rfl := hi <;> rfl
  obtain rfl | rfl := exec_cases hexec
  · rw [acceptAction_of_not_isLegal hillegal]
    exact ⟨rfl, rfl, rfl, rfl, rfl, rfl, rfl, rfl, rfl, fun _ => rfl, fun _ => rfl⟩
  · exact ⟨rfl, rfl, rfl, rfl, rfl, rfl, rfl, rfl, rfl, fun _ => rfl, fun _ => rfl⟩

/-! ### The outputs -/

/-- Output is owed in `PRE`, `TONE` and `POST` (R35). -/
theorem Phase.isBusy_iff (p : Phase) : p.isBusy = true ↔ p = .pre ∨ p = .tone ∨ p = .post := by
  cases p <;> simp [Phase.isBusy]

/-- Settles O19: the offered sample exists in a legal state, and the other outputs are read off the phase. -/
theorem outputsFollowThePhase : Obligations.OutputsFollowThePhase := by
  unfold Obligations.OutputsFollowThePhase
  intro s hl
  obtain ⟨v, hv⟩ := snkData_ok hl.config hl.consistent
  refine ⟨⟨s.symReady, s.snkValid, v, s.busy, s.faulted, s.faultCause, s.faultInfo⟩, by simp [State.outputs, hv],
    beq_iff_eq, Phase.isBusy_iff _, rfl, beq_iff_eq, rfl, rfl, fun hp => ?_, fun hp => ?_⟩
  · have hsilence := snkData_of_not_tone (s := s) (by obtain h | h := hp <;> simp [h])
    simpa [hv] using hsilence
  · obtain ⟨x, -, hread, -⟩ := memRead_of_lt hl.config hl.idxRange
    exact ⟨x, hread, by simpa [hv] using snkData_of_tone hp hread⟩

end Sys2Proof.Machine
end

section
/-! PROOFS. The host: its written programs (R75), its code table (R161 to R165), and what it sends for a line of text,
which no block faults on (R160, R167 to R169). -/

namespace Sys2Proof.Machine

/-! ### Written programs -/

/-- A one-character symbol is read as its code (R75). -/
theorem parseCompact_symbol {c : Char} {k : SymCode} (hraw : c ≠ '#') (hspace : c.isWhitespace = false)
    (hk : compactCode c = some k) (l : List Char) : parseCompact (c :: l) = (parseCompact l).map (k :: ·) := by
  rw [parseCompact]
  · rw [hspace, hk]
    cases parseCompact l <;> rfl
  · exact fun h _ => hraw h
  · exact fun _ _ h _ => hraw h

/-- A raw code is read from its digit (R75). -/
theorem parseCompact_raw {d : Char} {k : SymCode} (hk : rawCode d = some k) (l : List Char) :
    parseCompact ('#' :: d :: l) = (parseCompact l).map (k :: ·) := by
  rw [parseCompact, hk]
  cases parseCompact l <;> rfl

/-- A command in the compact form is read as its code (R75). -/
theorem parseCompact_compactForm_append (i : Instr) (l : List Char) :
    parseCompact (compactForm i ++ l) = (parseCompact l).map (encode i :: ·) := by
  cases i with
  | dot | dash | lsep | wgap | eol => exact parseCompact_symbol (by decide) rfl rfl l
  | reserved5 | reserved6 | reserved7 => exact parseCompact_raw rfl l

/-- A command on a line of the mnemonic form is read as its code (R75). -/
theorem assembleLine_mnemonicLine (i : Instr) : assembleLine (mnemonicLine i) = some (encode i) := by
  cases i with
  | dot | dash | lsep | wgap | eol | reserved5 | reserved6 | reserved7 => rfl

/-- Settles O57: command by command. -/
theorem writtenProgramsReadBack : Obligations.WrittenProgramsReadBack := by
  unfold Obligations.WrittenProgramsReadBack
  intro l
  induction l with
  | nil => exact ⟨rfl, rfl⟩
  | cons i l ih =>
    obtain ⟨hcompact, hmnemonic⟩ := ih
    constructor
    · rw [List.flatMap_cons, parseCompact_compactForm_append, hcompact]
      rfl
    · simp_all [assemble, assembleLine_mnemonicLine]

/-! ### The code table -/

/-- Where no character has two entries, looking up finds exactly the entries listed (R162). -/
theorem lookup_eq_some_iff_mem {rows : List (Char × List Mark)} (hnodup : (CodeTable.keys rows).Nodup) {c : Char}
    {code : List Mark} : rows.lookup c = some code ↔ (c, code) ∈ rows := by
  refine ⟨fun h => ?_, fun h => ?_⟩
  · obtain ⟨a, b, rfl, -⟩ := List.lookup_eq_some_iff.1 h
    simp
  · obtain ⟨a, b, rfl⟩ := List.append_of_mem h
    refine List.lookup_eq_some_iff.2 ⟨a, b, rfl, fun r hr => ?_⟩
    simp only [CodeTable.keys, List.map_append, List.map_cons, List.nodup_append, List.mem_map, List.mem_cons] at hnodup
    obtain ⟨-, -, hapart⟩ := hnodup
    have hne := hapart r.1 ⟨r, hr, rfl⟩ c (.inl rfl)
    simpa using hne.symm

/-- What a character but the space finds is the code of a listed row (R161). -/
theorem CodeTable.exists_row_of_lookup {t : CodeTable} {c : Char} {code : List Instr} (hc : c ≠ ' ')
    (h : t.lookup c = some code) : ∃ marks, (upperChar c, marks) ∈ t.rows ∧ code = marks.map Mark.symbol := by
  rw [t.lookup_of_ne_space hc] at h
  obtain ⟨marks, hmarks, rfl⟩ := Option.map_eq_some_iff.1 h
  obtain ⟨a, b, hrows, -⟩ := List.lookup_eq_some_iff.1 hmarks
  exact ⟨marks, by simp [hrows], rfl⟩

/-- A character but the space is found exactly if its key has a row (R161). -/
theorem CodeTable.lookup_isSome_iff (t : CodeTable) {c : Char} (hc : c ≠ ' ') :
    (∃ code, t.lookup c = some code) ↔ upperChar c ∈ keys t.rows := by
  rw [t.lookup_of_ne_space hc, ← Option.isSome_iff_exists, Option.isSome_map, List.lookup_isSome_iff]
  simp only [beq_iff_eq, keys, List.mem_map]
  exact exists_congr fun _ => and_congr_right' eq_comm

/-- The keys of a well-formed table are the letters, the digits and the punctuation (R162). -/
theorem CodeTable.mem_keys_iff {t : CodeTable} (ht : t.WellFormed) (c : Char) :
    c ∈ keys t.rows ↔ c ∈ lettersAndDigits ∨ ∃ r ∈ t.punct, r.1 = c := by
  obtain ⟨hcodes, -⟩ := ht
  rw [← hcodes.mem_iff, keys, CodeTable.rows, List.map_append, List.mem_append]
  exact or_congr_right List.mem_map

/-- A row of a well-formed table stands under the key of its own character, which is not the space (R161, R162). -/
theorem CodeTable.row_key {t : CodeTable} (ht : t.WellFormed) {r : Char × List Mark} (hr : r ∈ t.rows) :
    r.1 ≠ ' ' ∧ upperChar r.1 = r.1 := by
  obtain ⟨hcodes, -, hpunct, -⟩ := ht
  obtain hr | hr := mem_rows.1 hr
  · have hmem : r.1 ∈ lettersAndDigits := hcodes.mem_iff.1 (List.mem_map_of_mem hr)
    have hspace : ' ' ∉ lettersAndDigits := by decide
    exact ⟨fun h => hspace (h ▸ hmem), upperChar_of_mem hmem⟩
  · exact hpunct r hr

/-- The symbol of a mark is a dot or a dash (R162). -/
theorem Mark.symbol_eq (m : Mark) : m.symbol = .dot ∨ m.symbol = .dash := by
  cases m with
  | dot => exact .inl rfl
  | dash => exact .inr rfl

/-- Settles O58: the keys are the supported characters, and each row is the one its key finds. -/
theorem supportedCharactersHaveExactlyOneCode : Obligations.SupportedCharactersHaveExactlyOneCode := by
  unfold Obligations.SupportedCharactersHaveExactlyOneCode
  intro t ht
  have ⟨_, hnodup, _, hcode⟩ := ht
  refine ⟨fun c => ?_, fun c code hc h => ?_, fun r hr => ?_⟩
  · by_cases hc : c = ' '
    · simp [hc]
    · rw [t.lookup_isSome_iff hc, CodeTable.mem_keys_iff ht, mem_lettersAndDigits_iff, or_assoc, or_iff_right hc]
  · obtain ⟨marks, hrow, rfl⟩ := CodeTable.exists_row_of_lookup hc h
    refine ⟨by simpa using hcode _ hrow, fun i hi => ?_⟩
    obtain ⟨m, -, rfl⟩ := List.mem_map.1 hi
    exact m.symbol_eq
  · obtain ⟨hspace, hkey⟩ := CodeTable.row_key ht hr
    rw [t.lookup_of_ne_space hspace, hkey, (lookup_eq_some_iff_mem hnodup).2 hr]
    rfl

/-- A character listed among the letters and digits finds its code there, whatever the punctuation (R161). -/
theorem CodeTable.lookup_of_codes {t : CodeTable} {c : Char} {code : List Mark} (hc : c ≠ ' ')
    (h : t.codes.lookup (upperChar c) = some code) : t.lookup c = some (code.map Mark.symbol) := by
  rw [t.lookup_of_ne_space hc, CodeTable.rows, List.lookup_append, h]
  rfl

/-- Settles O56: the three letters stand among the default codes, and the space needs no row. -/
theorem defaultTableHasTheSourcesCodes : Obligations.DefaultTableHasTheSourcesCodes := by
  unfold Obligations.DefaultTableHasTheSourcesCodes
  refine ⟨⟨.refl _, by decide, by decide, by decide⟩, CodeTable.lookup_space, fun punct => ⟨?_, ?_, ?_⟩⟩
  · exact CodeTable.lookup_of_codes (code := [.dot]) (by decide) rfl
  · exact CodeTable.lookup_of_codes (code := [.dot, .dot, .dot]) (by decide) rfl
  · exact CodeTable.lookup_of_codes (code := [.dash, .dash, .dash]) (by decide) rfl

/-! ### Lines of text -/

/-- A character's code is made of marks and the word gap (R162, R163). -/
theorem CodeTable.isMark_or_isSeparator_of_lookup {t : CodeTable} {c : Char} {code : List Instr}
    (h : t.lookup c = some code) : ∀ i ∈ code, i.isMark = true ∨ i.isSeparator = true := by
  intro i hi
  by_cases hc : c = ' '
  · obtain rfl : [Instr.wgap] = code := by simpa [hc] using h
    obtain rfl : i = .wgap := by simpa using hi
    exact .inr rfl
  · obtain ⟨marks, -, rfl⟩ := exists_row_of_lookup hc h
    obtain ⟨m, -, rfl⟩ := List.mem_map.1 hi
    obtain hm | hm := m.symbol_eq <;> rw [hm] <;> exact .inl rfl

/-- The symbols of a line are marks and separators (R167). -/
theorem CodeTable.isMark_or_isSeparator_of_mem {t : CodeTable} {line : List Char} {i : Instr}
    (hi : i ∈ t.encodeSymbols line) : i.isMark = true ∨ i.isSeparator = true := by
  obtain ⟨c, -, hi⟩ := List.mem_flatMap.1 hi
  unfold encodeChar at hi
  split at hi
  · next code hcode =>
    obtain hi | hi := List.mem_append.1 hi
    · exact isMark_or_isSeparator_of_lookup hcode i hi
    · obtain rfl : i = .lsep := by simpa using hi
      exact .inr rfl
  · cases hi

/-- Marks and separators are legal, and none is `EOL` (R72). -/
theorem Instr.isLegal_and_ne_eol {i : Instr} (hi : i.isMark = true ∨ i.isSeparator = true) :
    i.isLegal = true ∧ i ≠ .eol := by
  cases i with
  | dot | dash | lsep | wgap => exact ⟨rfl, by decide⟩
  | eol | reserved5 | reserved6 | reserved7 => simp [Instr.isMark, Instr.isSeparator] at hi

/-- What a host and a sink that cause no fault put on the ports: legal symbols, and no failure (R160, R200). -/
def Inputs.Harmless (i : Inputs) : Prop :=
  i.snkErr = false ∧ (i.symValid = true → (decode i.symCode).isLegal = true)

/-- If all listed port values are harmless, so are those of the next step. -/
theorem input_harmless {s : State} (h : ∀ i ∈ s.inputs, i.Harmless) : s.input.Harmless := by
  cases hin : s.inputs with
  | nil =>
    rw [State.input, hin]
    exact ⟨rfl, fun hvalid => by cases hvalid⟩
  | cons i r => simpa [State.input, hin] using h i (by simp [hin])

/-- A legal state without a fault, to which the ports will carry nothing harmful. -/
def State.Unharmed (s : State) : Prop := s.Legal ∧ s.phase ≠ .fault ∧ ∀ i ∈ s.inputs, i.Harmless

/-- Without an illegal symbol or a failed beat no step takes a fault (R200). -/
theorem step_unharmed {s t : State} (hs : s.Unharmed) (hstep : step s = .next t) : t.Unharmed := by
  obtain ⟨hl, hnf, hin⟩ := hs
  obtain ⟨herr, hlegal⟩ := input_harmless hin
  have hlt : t.Legal := step_legal hl hstep
  refine ⟨hlt, ?_, fun i hi => hin i (List.mem_of_mem_tail (step_inputs hstep ▸ hi))⟩
  rw [← faultCause_eq_none_iff hl] at hnf
  rw [← faultCause_eq_none_iff hlt]
  obtain ⟨-, ⟨-, rfl⟩ | ⟨-, -, -, v, -, ⟨-, rfl⟩ | ⟨-, hvalid, rfl⟩ | ⟨-, -, -, rfl⟩ | ⟨-, h, -⟩⟩⟩ := step_cases hstep
  · rfl
  · exact hnf
  · exact (acceptAction_faultCause_of_isLegal (hlegal hvalid) _).trans hnf
  · simpa using hnf
  · simp [herr] at h

/-- Settles O55: a line's symbols are marks and separators with an `EOL` at the end, and no step on harmless port values
takes a fault. -/
theorem linesOfTextNeverFault : Obligations.LinesOfTextNeverFault := by
  unfold Obligations.LinesOfTextNeverFault
  refine ⟨fun t line => ⟨fun i hi => ?_, fun i hi => ?_⟩, fun k s u hl hnf hin hrun => ?_⟩
  · obtain hi | hi := List.mem_append.1 hi
    · exact (Instr.isLegal_and_ne_eol (CodeTable.isMark_or_isSeparator_of_mem hi)).1
    · obtain rfl : i = .eol := by simpa using hi
      rfl
  · exact (Instr.isLegal_and_ne_eol (CodeTable.isMark_or_isSeparator_of_mem hi)).2
  · have hs : s.Unharmed := ⟨hl, hnf, hin⟩
    obtain ⟨-, hnfu, -⟩ := runSteps_preserves (fun _ _ => step_unharmed) hs hrun
    exact hnfu

end Sys2Proof.Machine
end

section
/-! PROOFS. The byte views (R52, R54), durations and counter widths (R22, R144, R145, R151), and the reference generator
of the tone LUT (R147, R148). -/

namespace Sys2Proof.Machine

/-! ### Byte views -/

/-- The byte stream of a sample and the rest (R54). -/
@[simp] theorem bytesOf_cons (v : Sample) (l : List Sample) :
    bytesOf (v :: l) = lowByte v :: highByte v :: bytesOf l := rfl

/-- A stream has two bytes a sample (R55). -/
@[simp] theorem bytesOf_length (l : List Sample) : (bytesOf l).length = 2 * l.length := by
  induction l with
  | nil => rfl
  | cons v l ih =>
    simp only [bytesOf_cons, List.length_cons, ih]
    omega

/-- Sample `k` is the bytes `2k` and `2k+1` (R54). -/
theorem bytesOf_getElem? (l : List Sample) (k : Nat) :
    (bytesOf l)[2 * k]? = l[k]?.map lowByte ∧ (bytesOf l)[2 * k + 1]? = l[k]?.map highByte := by
  induction l generalizing k with
  | nil => exact ⟨rfl, rfl⟩
  | cons v l ih =>
    cases k with
    | zero => exact ⟨rfl, rfl⟩
    | succ k => simpa [Nat.mul_succ] using ih k

/-- A sample is its two bytes (R54). -/
theorem highByte_append_lowByte (v : Sample) : highByte v ++ lowByte v = v :=
  BitVec.extractLsb'_append_extractLsb'_eq_extractLsb' rfl |>.trans BitVec.extractLsb'_eq_self

/-- Settles O46: sample by sample. -/
theorem byteStreamIsLittleEndian : Obligations.ByteStreamIsLittleEndian := by
  unfold Obligations.ByteStreamIsLittleEndian
  refine fun l => ⟨bytesOf_length l, fun k v hk => ?_⟩
  obtain ⟨hlow, hhigh⟩ := bytesOf_getElem? l k
  rw [hk] at hlow hhigh
  exact ⟨hlow, hhigh, (highByte_append_lowByte v).symm⟩

/-- Byte `a` of a 16-bit word in little-endian order: the low byte at an even address, the high one at an odd (R52). -/
def byteAt (a : Nat) (v : Int) : Byte := if a % 2 = 0 then lowByte (bits16 v) else highByte (bits16 v)

/-- The byte view reads the byte of the entry at half the address (R52). -/
theorem lutByte_eq_ok_iff (c : Config) (a : Nat) (b : Byte) :
    lutByte c a = .ok b ↔ ∃ v, c.toneLut[a / 2]? = some v ∧ b = byteAt a v := by
  unfold lutByte memRead byteAt
  cases c.toneLut[a / 2]? with
  | none => simp
  | some v => simp [eq_comm]

/-- The cells of `vs` are two a word (R50). -/
theorem cellsFrom_length (vs : List Int) (n : Nat) : (cellsFrom n vs).length = 2 * vs.length := by
  induction vs generalizing n with
  | nil => rfl
  | cons v vs ih =>
    simp only [cellsFrom, List.length_cons, ih]
    omega

/-- The cell at the offset `a` holds the byte of the word at half the offset (R52). -/
theorem mem_cellsFrom_iff (vs : List Int) (n a : Nat) (b : Byte) :
    (n + a, b) ∈ cellsFrom n vs ↔ ∃ v, vs[a / 2]? = some v ∧ b = byteAt a v := by
  induction vs generalizing n a with
  | nil => simp [cellsFrom]
  | cons v vs ih =>
    have hlater : ∀ x, (n + x, b) ∈ cellsFrom (n + 2) vs → 2 ≤ x := fun x hx => by
      have := (cellsFrom_address vs (n + 2) _ hx).1
      omega
    match a with
    | 0 => simpa [cellsFrom, byteAt] using fun h => absurd (hlater 0 h) (by omega)
    | 1 => simpa [cellsFrom, byteAt] using fun h => absurd (hlater 1 h) (by omega)
    | a + 2 =>
      have hbyte : byteAt (a + 2) = byteAt a := by
        funext w
        simp [byteAt]
      have hhalf : (a + 2) / 2 = a / 2 + 1 := by omega
      rw [hbyte, hhalf, List.getElem?_cons_succ, ← ih (n + 2) a, show n + 2 + a = n + (a + 2) by omega]
      simp [cellsFrom]

/-- Settles O44: the cells and the byte view hold the same byte of the same entry. -/
theorem romCellsAreTheByteView : Obligations.RomCellsAreTheByteView := by
  unfold Obligations.RomCellsAreTheByteView
  intro c hc
  have ⟨_, _, _, hlen, _⟩ := hc
  refine ⟨lutCells_wf c, ?_, fun a b => ?_⟩
  · rw [lutCells, cellsFrom_length, hlen]
  · rw [lutByte_eq_ok_iff, ← mem_cellsFrom_iff c.toneLut 0, Nat.zero_add, lutCells]

/-! ### Durations and widths -/

/-- Settles O48: a unit is `U` blocks of `N_C` samples of two bytes. -/
theorem durationsConvertToBlocksSamplesBytes : Obligations.DurationsConvertToBlocksSamplesBytes := by
  unfold Obligations.DurationsConvertToBlocksSamplesBytes
  intro c n hc
  have hsamples : ∀ b, (blocks c b (unitBlocks c n)).length = n * c.U * c.nC := fun b => blocks_length hc b _
  have hbytes : 2 * n * c.U * c.nC = 2 * (n * c.U * c.nC) := by ring
  refine ⟨hsamples .tone, hsamples .silence, ?_, hbytes.symm, ?_⟩
  · rw [bytesOf_length, hsamples, hbytes]
  · simp [unitSeconds, unitSamples, unitBlocks, sampleRate]

/-- The requirement of a legal state is at most a word gap, and the top-up one unit less (R27, R100). -/
theorem topUpUnits_le_six {s : State} (hl : s.Legal) : topUpUnits s ≤ 6 := by
  obtain ⟨-, -, -, -, -, ⟨hneed, -⟩, -⟩ := hl.consistent
  unfold topUpUnits igapUnits
  split <;> omega

/-- Settles O47: the counts are the unit multiples times `U`. -/
theorem blockCountsAreMultiplesOfTheUnit : Obligations.BlockCountsAreMultiplesOfTheUnit := by
  unfold Obligations.BlockCountsAreMultiplesOfTheUnit
  refine ⟨⟨rfl, rfl, rfl, rfl, rfl⟩, fun c => ?_, fun s hl => ?_, fun s hseen hneed => ?_⟩
  · exact ⟨unitBlocks_one c, rfl, unitBlocks_one c, rfl, rfl⟩
  · exact Nat.mul_le_mul_right _ (topUpUnits_le_six hl)
  · rw [unitBlocks, topUpUnits_of_seen hseen, hneed]

/-- An index below `N_C` fits its width (R151). -/
theorem lt_two_pow_idxBits {c : Config} {k : Nat} (h : k < c.nC) : k < 2 ^ idxBits c := by
  unfold idxBits
  split
  · omega
  · exact h.trans_le (Nat.le_pow_clog Nat.one_lt_two _)

/-- Settles O49: by the ranges of a legal state. -/
theorem countersFitTheirWidths : Obligations.CountersFitTheirWidths := by
  unfold Obligations.CountersFitTheirWidths
  intro s hl
  obtain ⟨-, -, -, -, -, ⟨hneed, hunits⟩, -⟩ := hl.consistent
  have hblk : s.blkLeft < 6 * s.cfg.U + 1 := Nat.lt_succ_of_le hl.blkLeftRange
  exact ⟨hblk.trans_le (Nat.le_pow_clog Nat.one_lt_two _), lt_two_pow_idxBits hl.idxRange, by omega, by omega⟩

/-! ### Rounding -/

/-- An integer rounds to itself (R148). -/
theorem roundsHalfAway_intCast (n : Int) : RoundsHalfAway (n : ℝ) n := by
  simp [RoundsHalfAway]

/-- The rounding is symmetric about 0 (R148). -/
theorem RoundsHalfAway.neg {x : ℝ} {n : Int} (h : RoundsHalfAway x n) : RoundsHalfAway (-x) (-n) := by
  have hdist : |-x - ((-n : Int) : ℝ)| = |x - n| := by
    rw [← abs_neg]
    congr 1
    push_cast
    ring
  rw [RoundsHalfAway, hdist, Int.cast_neg, abs_neg, abs_neg]
  exact h

/-- Two roundings of one real are not apart: they would be the integers on both sides of it, and the lower one is farther
from 0 only below 0, the upper one only above (R148). -/
theorem RoundsHalfAway.le {x : ℝ} {m n : Int} (hm : RoundsHalfAway x m) (hn : RoundsHalfAway x n) : n ≤ m := by
  by_contra hle
  obtain ⟨hmd, hmtie⟩ := hm
  obtain ⟨hnd, hntie⟩ := hn
  have hstep : (m : ℝ) + 1 ≤ n := by exact_mod_cast not_le.1 hle
  obtain ⟨-, hmx⟩ := abs_le.1 hmd
  obtain ⟨hnx, -⟩ := abs_le.1 hnd
  have hx : x - m = 1 / 2 := by linarith
  have hy : x - n = -(1 / 2) := by linarith
  have hmfar := hmtie (by rw [hx]; norm_num)
  have hnfar := hntie (by rw [hy]; norm_num)
  obtain h | h := le_or_gt 0 (m : ℝ)
  · rw [abs_of_nonneg h, abs_of_nonneg (by linarith)] at hmfar
    linarith
  · have hneighbour : (n : ℝ) = m + 1 := by linarith
    have hnonpos : (n : ℝ) ≤ 0 := by
      rw [hneighbour]
      exact_mod_cast Int.add_one_le_of_lt (Int.cast_lt_zero.1 h)
    rw [abs_of_nonpos hnonpos, abs_of_nonpos (by linarith)] at hnfar
    linarith

/-- The rounding picks one integer (R148). -/
theorem RoundsHalfAway.unique {x : ℝ} {m n : Int} (hm : RoundsHalfAway x m) (hn : RoundsHalfAway x n) : m = n :=
  le_antisymm (hn.le hm) (hm.le hn)

/-- From 0 upwards the rounding is the floor of the value and a half (R148). -/
theorem roundsHalfAway_floor {q : ℚ} (hq : 0 ≤ q) : RoundsHalfAway (q : ℝ) (q + 1 / 2).floor := by
  set n := (q + 1 / 2).floor
  have hle : (n : ℝ) ≤ (q + 1 / 2 : ℚ) := by exact_mod_cast Rat.floor_le (q + 1 / 2)
  have hlt : ((q + 1 / 2 - 1 : ℚ) : ℝ) < n := by exact_mod_cast Rat.lt_floor (x := q + 1 / 2)
  push_cast at hle hlt
  have hpos : (0 : ℝ) ≤ q := by exact_mod_cast hq
  refine ⟨abs_le.2 ⟨by linarith, by linarith⟩, fun htie => ?_⟩
  obtain h | h := (abs_eq (by norm_num)).1 htie
  · linarith
  · rw [abs_of_nonneg hpos, abs_of_nonneg (by linarith)]
    linarith

/-- The computed rounding is the rounding (R148). -/
theorem roundsHalfAway_roundHalfAway (q : ℚ) : RoundsHalfAway (q : ℝ) (roundHalfAway q) := by
  unfold roundHalfAway
  split
  · next hq => exact roundsHalfAway_floor hq
  · next hq => simpa using (roundsHalfAway_floor (q := -q) (by linarith)).neg

/-- So the computed rounding of a rational is any integer that rounds it (R148). -/
theorem roundHalfAway_eq {q : ℚ} {n : Int} (h : RoundsHalfAway (q : ℝ) n) : roundHalfAway q = n :=
  (roundsHalfAway_roundHalfAway q).unique h

/-! ### The reference table -/

/-- Where the exact sine is 0, a reference table's entry is 0 (R147). -/
theorem reference_entry_zero {c : Config} (hc : IsReferenceTable c) {k : Nat} {v : Int} (hk : c.toneLut[k]? = some v)
    (hsin : Real.sin (2 * Real.pi * k / c.nC) = 0) : v = 0 := by
  have hround : RoundsHalfAway 0 v := by simpa [RoundsReferenceSine, hsin] using hc k v hk
  exact hround.unique (by simpa using roundsHalfAway_intCast 0)

/-- Settles O51: the tie decides between two neighbours, and the sine is 0 at 0 and at half a cycle. -/
theorem roundingIsHalfAwayFromZero : Obligations.RoundingIsHalfAwayFromZero := by
  unfold Obligations.RoundingIsHalfAwayFromZero
  have hhalf : RoundsHalfAway (5 / 2) 3 := by norm_num [RoundsHalfAway, abs_of_pos, abs_of_neg]
  refine ⟨fun x m n => RoundsHalfAway.unique, roundsHalfAway_roundHalfAway, ?_, ?_, ?_, fun c hc v hv => ?_,
    fun c hc h v hN hpos hv => ?_⟩
  · exact roundHalfAway_eq (by simpa using hhalf)
  · exact roundHalfAway_eq (by simpa [neg_div] using hhalf.neg)
  · exact roundHalfAway_eq (by norm_num [RoundsHalfAway, abs_of_pos, abs_of_neg])
  · exact reference_entry_zero hc hv (by simp)
  · refine reference_entry_zero hc hv ?_
    have hne : (h : ℝ) ≠ 0 := by positivity
    have hpi : 2 * Real.pi * h / (c.nC : ℝ) = Real.pi := by
      rw [hN]
      push_cast
      field_simp
    rw [hpi, Real.sin_pi]

/-- The rounded value of a sine of amplitude at most 32767 is within 32767 (R147). -/
theorem reference_entry_range {c : Config} (hA : 0 ≤ c.A ∧ c.A ≤ 32767) {k : Nat} {v : Int}
    (h : RoundsReferenceSine c k v) : -32767 ≤ v ∧ v ≤ 32767 := by
  obtain ⟨hdist, -⟩ := h
  have hA0 : (0 : ℝ) ≤ c.A := by exact_mod_cast hA.1
  have hA1 : (c.A : ℝ) ≤ 32767 := by exact_mod_cast hA.2
  have hsine : |(c.A : ℝ) * Real.sin (2 * Real.pi * k / c.nC)| ≤ 32767 := by
    rw [abs_mul, abs_of_nonneg hA0]
    exact (mul_le_of_le_one_right hA0 (Real.abs_sin_le_one _)).trans hA1
  obtain ⟨hlo, hhi⟩ := abs_le.1 hsine
  obtain ⟨hdlo, hdhi⟩ := abs_le.1 hdist
  have hlt : (v : ℝ) < 32768 := by linarith
  have hgt : (-32768 : ℝ) < v := by linarith
  have hlt' : v < 32768 := by exact_mod_cast hlt
  have hgt' : -32768 < v := by exact_mod_cast hgt
  omega

/-- Settles O50: entry by entry. -/
theorem referenceTableStaysInRange : Obligations.ReferenceTableStaysInRange := by
  unfold Obligations.ReferenceTableStaysInRange
  intro c hc href v hv
  obtain ⟨-, -, hA, -⟩ := hc
  obtain ⟨k, hk⟩ := List.mem_iff_getElem?.1 hv
  exact reference_entry_range hA (href k v hk)

/-- The exact value is an integer: the rounding is that integer (R148). -/
theorem roundsReferenceSine_of_eq {c : Config} {k : Nat} {v : Int}
    (h : c.A * Real.sin (2 * Real.pi * k / c.nC) = v) : RoundsReferenceSine c k v := by
  rw [RoundsReferenceSine, h]
  exact roundsHalfAway_intCast v

/-- The entries of CFG-A are a quarter of the cycle apart (95_test_vectors.md Part 2). -/
theorem cfgA_angle (k : Nat) : 2 * Real.pi * k / (Config.cfgA.nC : ℝ) = k * (Real.pi / 2) := by
  simp only [Config.cfgA]
  push_cast
  ring

/-- The table of CFG-A is the sine at the quarters of the cycle (95_test_vectors.md Part 2). -/
theorem cfgA_isReferenceTable : IsReferenceTable Config.cfgA := by
  intro k v hk
  apply roundsReferenceSine_of_eq
  rw [cfgA_angle]
  match k with
  | 0 =>
    obtain rfl : 0 = v := Option.some.inj hk
    simp
  | 1 =>
    obtain rfl : 16384 = v := Option.some.inj hk
    simp [Config.cfgA]
  | 2 =>
    obtain rfl : 0 = v := Option.some.inj hk
    have hangle : ((2 : ℕ) : ℝ) * (Real.pi / 2) = Real.pi := by push_cast; ring
    rw [hangle, Real.sin_pi]
    simp
  | 3 =>
    obtain rfl : -16384 = v := Option.some.inj hk
    have hangle : ((3 : ℕ) : ℝ) * (Real.pi / 2) = Real.pi / 2 + Real.pi := by push_cast; ring
    rw [hangle, Real.sin_add_pi, Real.sin_pi_div_two]
    simp [Config.cfgA]
  | k + 4 => cases hk

/-- With one or two samples in a cycle the sine is sampled at multiples of half a cycle, where it is 0 (R147). -/
theorem sin_sample_of_short_cycle {n : Nat} (hn : n = 1 ∨ n = 2) (k : Nat) : Real.sin (2 * Real.pi * k / n) = 0 := by
  obtain rfl | rfl := hn
  · have hangle : 2 * Real.pi * k / (1 : ℕ) = (2 * k : ℕ) * Real.pi := by push_cast; ring
    rw [hangle, Real.sin_nat_mul_pi]
  · have hangle : 2 * Real.pi * k / (2 : ℕ) = k * Real.pi := by push_cast; ring
    rw [hangle, Real.sin_nat_mul_pi]

/-- Settles O52: CFG-B differs from CFG-A in `U` alone, which the generator does not read. -/
theorem referenceTablesOfTheVectors : Obligations.ReferenceTablesOfTheVectors := by
  unfold Obligations.ReferenceTablesOfTheVectors
  refine ⟨cfgA_isReferenceTable, cfgA_isReferenceTable, fun c _ hN href v hv => ?_⟩
  obtain ⟨k, hk⟩ := List.mem_iff_getElem?.1 hv
  exact reference_entry_zero href hk (sin_sample_of_short_cycle hN k)

end Sys2Proof.Machine
end
